-- ==== Sys2Proof/Word.lean ====
section
/-! DEFINITION. The two word types of the decode core (00_scope.md R9, R14). -/

namespace Sys2Proof

/-- `u8` of the spec: a memory byte, an opcode, an 8-bit register. -/
abbrev Byte := BitVec 8

/-- `u16` of the spec: an address, the program counter, the stack pointer, a register pair. -/
abbrev Word := BitVec 16

end Sys2Proof
end

