-- ==== Sys2Proof/Config.lean ====
section
/-! DEFINITION. The parameters of the block: the fixed ones of 00_scope.md R9, the schema of the catalog
parameter `CAT` (00_scope.md R12, 41_catalog.md R140 to R144), the key format (R149), and the values the
spec leaves open, as constants with no body. -/

namespace Sys2Proof

/-! ## The catalog's schema -/

/-- How an entry changes one flag (41_catalog.md R143). Descriptive only: no rule of the block reads it. -/
inductive Effect
  | set | cleared | unaffected | dependent
  deriving DecidableEq, Repr, Inhabited

/-- The Flags Effect Descriptor (41_catalog.md R143). -/
structure FlagsEffect where
  z : Effect
  n : Effect
  h : Effect
  c : Effect
  deriving DecidableEq, Repr, Inhabited

/-- The cycle counts of an entry: a list of length 1 or 2 (41_catalog.md R141, R144). Carried, never read. -/
inductive Cycles
  | one (count : Nat)
  | two (first second : Nat)
  deriving DecidableEq, Repr, Inhabited

/-- An Operand Descriptor (41_catalog.md R142). `bytes` is present when the operand is encoded inline. -/
structure OperandDescriptor where
  name : String
  bytes : Option Nat
  immediate : Bool
  deriving DecidableEq, Repr, Inhabited

/-- An Instruction Descriptor, that is, a catalog entry (41_catalog.md R141). -/
structure Descriptor where
  mnemonic : String
  bytes : Nat
  cycles : Cycles
  operands : List OperandDescriptor
  immediate : Bool
  flags : FlagsEffect
  deriving DecidableEq, Repr, Inhabited

/-- The catalog parameter `CAT`: two total maps keyed by the opcode byte (00_scope.md R12, 41_catalog.md R140).
It is no part of the state (10_state.md R36). -/
structure Catalog where
  unprefixed : Byte → Option Descriptor
  cbprefixed : Byte → Option Descriptor

/-- How the serialized catalog spells an opcode key, and how the loader reads one: the parameter `KEY_FORMAT`
(00_scope.md R13, 41_catalog.md R149). -/
structure KeyFormat where
  render : Byte → String
  parse : String → Option Byte

/-- How a future handler would combine the bytes of an operand: `OPERAND_BYTE_ORDER` (00_scope.md R13). -/
inductive ByteOrder
  | littleEndian | bigEndian
  deriving DecidableEq, Repr, Inhabited

namespace Config

/-! ## Fixed parameters (00_scope.md R9) -/

/-- `ENTRY`: the reset value of the pc. -/
abbrev entry : Word := 0x0100#16
/-- `LOAD_BASE`: where `load_program` places the image. -/
abbrev loadBase : Nat := 0x0100
/-- `MEM_SIZE`: the number of memory bytes. -/
abbrev memSize : Nat := 0x10000
/-- `MAX_IMAGE`: the longest image that loads (00_scope.md R10). -/
abbrev maxImage : Nat := 0xFF00
/-- `PREFIX`: the escape byte. -/
abbrev escapeByte : Byte := 0xCB#8
/-- `PC_LIMIT`: the run halts when the exact next pc reaches it. -/
abbrev pcLimit : Nat := 0xFFFF

/-! ## Values the spec leaves open

Constants without a body: nothing can be proved about their values. -/

/-- REF_CAT's cycle counts, by space and opcode: not given by the spec (41_catalog.md R157; DESIGN CHOICE, log 2). -/
opaque refCycles : Bool → Byte → Cycles
/-- REF_CAT's flag effects: not given by the spec (41_catalog.md R157; DESIGN CHOICE, log 2). -/
opaque refFlags : Bool → Byte → FlagsEffect
/-- REF_CAT's entry-level `immediate` flag: not given by the spec (41_catalog.md R157; DESIGN CHOICE, log 2). -/
opaque refImmediate : Bool → Byte → Bool
/-- REF_CAT's `immediate` flag of the operand at a position: not given by the spec (41_catalog.md R157; DESIGN CHOICE, log 2). -/
opaque refOperandImmediate : Bool → Byte → Nat → Bool
/-- `OPERAND_BYTE_ORDER`: open, and read by no rule of the block (20_memory.md R52; DESIGN CHOICE, log 11). -/
opaque operandByteOrder : ByteOrder

end Config
end Sys2Proof
end

