-- ==== Sys2Proof/Machine/Catalog.lean ====
section
/-! DEFINITION. The instruction catalog's operations: total lookup (41_catalog.md R147, R148), the inline length
of an entry (30_encoding.md R72), the well-formedness premise `CatalogWF` (41_catalog.md R145), and the reference
catalog REF_CAT (R154, R155), which the spec marks as general knowledge (PRESUMED, log 1). -/

namespace Sys2Proof

/-- `CAT.lookup(prefixed, op)` (41_catalog.md R147). -/
def Catalog.lookup (cat : Catalog) (prefixed : Bool) (op : Byte) : Option Descriptor :=
  if prefixed then cat.cbprefixed op else cat.unprefixed op

/-- The sum of the operands' static lengths; an operand without one adds 0 (30_encoding.md R72). -/
def staticLength : List OperandDescriptor → Nat
  | [] => 0
  | o :: os => o.bytes.getD 0 + staticLength os

/-- `S` of 30_encoding.md R72: the inline operand length of an entry. The declared `bytes` is not read (R129). -/
def Descriptor.inlineLength (d : Descriptor) : Nat :=
  staticLength d.operands

/-- `base(s)` of 41_catalog.md R145, and `k` of 30_encoding.md R70: the number of opcode bytes in a space. -/
def opcodeLength (prefixed : Bool) : Nat :=
  if prefixed then 2 else 1

/-- `CatalogWF(CAT)` (41_catalog.md R145): each declared length is the base plus the static lengths. A premise,
never checked by the block. -/
def Catalog.WF (cat : Catalog) : Prop :=
  ∀ (prefixed : Bool) (op : Byte) (d : Descriptor),
    cat.lookup prefixed op = some d → d.bytes = opcodeLength prefixed + d.inlineLength

/-! ## REF_CAT -/

/-- A cell of the reference grid: the mnemonic, and the operands as (name, static length). -/
abbrev Cell := String × List (String × Option Nat)

namespace Machine

/-- An operand with no static length: a register, a condition, a bit number, a memory operand, a target. -/
def reg (name : String) : String × Option Nat := (name, none)
/-- An operand encoded in one inline byte (`n8`, `e8`, `a8`). -/
def imm8 (name : String) : String × Option Nat := (name, some 1)
/-- An operand encoded in two inline bytes (`n16`, `a16`). -/
def imm16 (name : String) : String × Option Nat := (name, some 2)

/-- The names of the eight 8-bit operands, by their three-bit code (41_catalog.md R155). -/
def operand8Names : List String := ["B", "C", "D", "E", "H", "L", "[HL]", "A"]

/-- Eight cells `mnemonic op,r` over the eight 8-bit operands. -/
def cells8 (mnemonic : String) (first : List String) : List Cell :=
  operand8Names.map fun r => (mnemonic, first.map reg ++ [reg r])

/-- Rows 0x to 3x of the unprefixed grid (41_catalog.md R154). -/
def gridLow : List Cell :=
  [("NOP", []), ("LD", [reg "BC", imm16 "n16"]), ("LD", [reg "[BC]", reg "A"]), ("INC", [reg "BC"]),
   ("INC", [reg "B"]), ("DEC", [reg "B"]), ("LD", [reg "B", imm8 "n8"]), ("RLCA", []),
   ("LD", [imm16 "[a16]", reg "SP"]), ("ADD", [reg "HL", reg "BC"]), ("LD", [reg "A", reg "[BC]"]), ("DEC", [reg "BC"]),
   ("INC", [reg "C"]), ("DEC", [reg "C"]), ("LD", [reg "C", imm8 "n8"]), ("RRCA", [])] ++
  [("STOP", [imm8 "n8"]), ("LD", [reg "DE", imm16 "n16"]), ("LD", [reg "[DE]", reg "A"]), ("INC", [reg "DE"]),
   ("INC", [reg "D"]), ("DEC", [reg "D"]), ("LD", [reg "D", imm8 "n8"]), ("RLA", []),
   ("JR", [imm8 "e8"]), ("ADD", [reg "HL", reg "DE"]), ("LD", [reg "A", reg "[DE]"]), ("DEC", [reg "DE"]),
   ("INC", [reg "E"]), ("DEC", [reg "E"]), ("LD", [reg "E", imm8 "n8"]), ("RRA", [])] ++
  [("JR", [reg "NZ", imm8 "e8"]), ("LD", [reg "HL", imm16 "n16"]), ("LD", [reg "[HL+]", reg "A"]), ("INC", [reg "HL"]),
   ("INC", [reg "H"]), ("DEC", [reg "H"]), ("LD", [reg "H", imm8 "n8"]), ("DAA", []),
   ("JR", [reg "Z", imm8 "e8"]), ("ADD", [reg "HL", reg "HL"]), ("LD", [reg "A", reg "[HL+]"]), ("DEC", [reg "HL"]),
   ("INC", [reg "L"]), ("DEC", [reg "L"]), ("LD", [reg "L", imm8 "n8"]), ("CPL", [])] ++
  [("JR", [reg "NC", imm8 "e8"]), ("LD", [reg "SP", imm16 "n16"]), ("LD", [reg "[HL-]", reg "A"]), ("INC", [reg "SP"]),
   ("INC", [reg "[HL]"]), ("DEC", [reg "[HL]"]), ("LD", [reg "[HL]", imm8 "n8"]), ("SCF", []),
   ("JR", [reg "C", imm8 "e8"]), ("ADD", [reg "HL", reg "SP"]), ("LD", [reg "A", reg "[HL-]"]), ("DEC", [reg "SP"]),
   ("INC", [reg "A"]), ("DEC", [reg "A"]), ("LD", [reg "A", imm8 "n8"]), ("CCF", [])]

/-- Rows 4x to 7x: `LD r,r'`, with HALT in the place of `LD [HL],[HL]` (41_catalog.md R154). -/
def gridLoads : List Cell :=
  cells8 "LD" ["B"] ++ cells8 "LD" ["C"] ++ cells8 "LD" ["D"] ++ cells8 "LD" ["E"] ++
  cells8 "LD" ["H"] ++ cells8 "LD" ["L"] ++ (cells8 "LD" ["[HL]"]).set 6 ("HALT", []) ++ cells8 "LD" ["A"]

/-- Rows 8x to Bx: the eight accumulator operations over the eight operands (41_catalog.md R154). -/
def gridAlu : List Cell :=
  cells8 "ADD" ["A"] ++ cells8 "ADC" ["A"] ++ cells8 "SUB" ["A"] ++ cells8 "SBC" ["A"] ++
  cells8 "AND" ["A"] ++ cells8 "XOR" ["A"] ++ cells8 "OR" ["A"] ++ cells8 "CP" ["A"]

/-- Rows Cx to Fx of the unprefixed grid; the 0xCB cell is the entry PREFIX, which no step looks up
(41_catalog.md R154, 30_encoding.md R75). -/
def gridHigh : List Cell :=
  [("RET", [reg "NZ"]), ("POP", [reg "BC"]), ("JP", [reg "NZ", imm16 "a16"]), ("JP", [imm16 "a16"]),
   ("CALL", [reg "NZ", imm16 "a16"]), ("PUSH", [reg "BC"]), ("ADD", [reg "A", imm8 "n8"]), ("RST", [reg "$00"]),
   ("RET", [reg "Z"]), ("RET", []), ("JP", [reg "Z", imm16 "a16"]), ("PREFIX", []),
   ("CALL", [reg "Z", imm16 "a16"]), ("CALL", [imm16 "a16"]), ("ADC", [reg "A", imm8 "n8"]), ("RST", [reg "$08"])] ++
  [("RET", [reg "NC"]), ("POP", [reg "DE"]), ("JP", [reg "NC", imm16 "a16"]), ("ILLEGAL_D3", []),
   ("CALL", [reg "NC", imm16 "a16"]), ("PUSH", [reg "DE"]), ("SUB", [reg "A", imm8 "n8"]), ("RST", [reg "$10"]),
   ("RET", [reg "C"]), ("RETI", []), ("JP", [reg "C", imm16 "a16"]), ("ILLEGAL_DB", []),
   ("CALL", [reg "C", imm16 "a16"]), ("ILLEGAL_DD", []), ("SBC", [reg "A", imm8 "n8"]), ("RST", [reg "$18"])] ++
  [("LDH", [imm8 "[a8]", reg "A"]), ("POP", [reg "HL"]), ("LDH", [reg "[C]", reg "A"]), ("ILLEGAL_E3", []),
   ("ILLEGAL_E4", []), ("PUSH", [reg "HL"]), ("AND", [reg "A", imm8 "n8"]), ("RST", [reg "$20"]),
   ("ADD", [reg "SP", imm8 "e8"]), ("JP", [reg "HL"]), ("LD", [imm16 "[a16]", reg "A"]), ("ILLEGAL_EB", []),
   ("ILLEGAL_EC", []), ("ILLEGAL_ED", []), ("XOR", [reg "A", imm8 "n8"]), ("RST", [reg "$28"])] ++
  [("LDH", [reg "A", imm8 "[a8]"]), ("POP", [reg "AF"]), ("LDH", [reg "A", reg "[C]"]), ("DI", []),
   ("ILLEGAL_F4", []), ("PUSH", [reg "AF"]), ("OR", [reg "A", imm8 "n8"]), ("RST", [reg "$30"]),
   ("LD", [reg "HL", imm8 "SP+e8"]), ("LD", [reg "SP", reg "HL"]), ("LD", [reg "A", imm16 "[a16]"]), ("EI", []),
   ("ILLEGAL_FC", []), ("ILLEGAL_FD", []), ("CP", [reg "A", imm8 "n8"]), ("RST", [reg "$38"])]

/-- The names of the CB operations of group 0, by bits [5:3] (41_catalog.md R155). -/
def shiftNames : List String := ["RLC", "RRC", "RL", "RR", "SLA", "SRA", "SWAP", "SRL"]

/-- The bit numbers as operand names, by bits [5:3] (41_catalog.md R155). -/
def bitNames : List String := ["0", "1", "2", "3", "4", "5", "6", "7"]

/-- The unprefixed space of REF_CAT, by opcode (41_catalog.md R154). -/
def gridUnprefixed : List Cell :=
  gridLow ++ gridLoads ++ gridAlu ++ gridHigh

/-- The CB-prefixed space of REF_CAT, by opcode: bits [7:6] the group, [5:3] the operation or the bit number, [2:0]
the operand (41_catalog.md R155). -/
def gridCb : List Cell :=
  (shiftNames.map fun m => cells8 m []).flatten ++ (bitNames.map fun n => cells8 "BIT" [n]).flatten ++
  (bitNames.map fun n => cells8 "RES" [n]).flatten ++ (bitNames.map fun n => cells8 "SET" [n]).flatten

/-- The operand descriptors of a cell, from position `i` on; the `immediate` flags are free values (log 2). -/
def refOperands (prefixed : Bool) (op : Byte) : Nat → List (String × Option Nat) → List OperandDescriptor
  | _, [] => []
  | i, o :: os =>
    { name := o.1, bytes := o.2, immediate := Config.refOperandImmediate prefixed op i } ::
      refOperands prefixed op (i + 1) os

/-- REF_CAT's descriptor of a cell: `bytes` as 41_catalog.md R157 says, the values the spec does not give free (log 2). -/
def refDescriptor (prefixed : Bool) (op : Byte) (cell : Cell) : Descriptor :=
  { mnemonic := cell.1
    bytes := opcodeLength prefixed + staticLength (refOperands prefixed op 0 cell.2)
    cycles := Config.refCycles prefixed op
    operands := refOperands prefixed op 0 cell.2
    immediate := Config.refImmediate prefixed op
    flags := Config.refFlags prefixed op }

/-- REF_CAT (41_catalog.md R154, R155): the catalog that `step` runs with (PRESUMED, log 1). -/
def refCat : Catalog where
  unprefixed op := gridUnprefixed[op.toNat]?.map (refDescriptor false op)
  cbprefixed op := gridCb[op.toNat]?.map (refDescriptor true op)

end Machine
end Sys2Proof
end

