-- ==== Sys2Proof/Machine/State.lean ====
section
/-! DEFINITION. The state of the block, all of it and nothing else (10_state.md R20, R35, R36), the reasons a step
can stop, and the state after reset (R37, R39). -/

namespace Sys2Proof.Machine

/-- The eight 8-bit registers (10_state.md R21). `f` is the flag register (R24). -/
structure Regs where
  a : Byte
  f : Byte
  b : Byte
  c : Byte
  d : Byte
  e : Byte
  h : Byte
  l : Byte
  deriving DecidableEq, Repr

/-- Why a run ended (10_state.md R31). -/
inductive HaltReason
  /-- The exact next pc reached 0xFFFF: the normal termination (60_exceptions.md R202). -/
  | pcOverflow
  /-- The fetched opcode is unmapped: the space searched, the opcode byte, the instruction address (60_exceptions.md R201). -/
  | unknownOpcode (prefixed : Bool) (opcode : Byte) (address : Word)
  deriving DecidableEq, Repr

/-- The run-state register (10_state.md R31). -/
inductive RunState
  | running
  | halted (reason : HaltReason)
  deriving DecidableEq, Repr

/-- The memory as (address, byte) pairs in one canonical form, `Memory.wf` of Ops.lean: addresses strictly rising,
and no pair that holds what an unlisted address reads as. -/
abbrev Memory := List Host.Cell

/-- The state of 10_state.md R20. -/
structure State where
  pc : Word
  regs : Regs
  sp : Word
  mem : Memory
  run : RunState
  deriving DecidableEq, Repr

/-- Why the machine takes no step. Neither is an exception of the block: its two halts are next states (60_exceptions.md R209). -/
inductive Fault
  /-- Raised by `step` in a halted state, with the result of the run: "In `Halted(r)` the machine has no step"
  (40_decode_loop.md R101). Safe: the spec gives no next state (log 4). -/
  | runEnded (reason : HaltReason)
  /-- Raised by the escape row when its second byte would lie past address 0xFFFF, and by a step with no byte to
  fetch. 40_decode_loop.md R106 rules both out whenever 10_state.md R30 holds. Safe: the machine stops where the spec
  gives no read (log 4). -/
  | fetchOutsideMemory (address : Nat)
  deriving DecidableEq, Repr

/-- Why an instruction has no meaning. -/
inductive Refusal
  /-- Raised by `exec` for an instruction without a meaning, by its table mnemonic. No instruction of this model
  raises it. Safe: nothing can be proved of such an instruction. -/
  | notModelled (mnemonic : String)
  deriving DecidableEq, Repr

/-- What an instruction answers. -/
abbrev Result := Host.Outcome State Fault Refusal

/-- Reset, that is, `new()` (42_state_operations.md R170, 10_state.md R37, R39): every value is the spec's. No memory
byte is listed, since an unlisted address reads as 0x00. -/
def State.reset : State where
  pc := Config.entry
  regs := { a := 0, f := 0, b := 0, c := 0, d := 0, e := 0, h := 0, l := 0 }
  sp := 0
  mem := []
  run := .running

end Sys2Proof.Machine
end

