-- ==== Sys2Proof/Machine/Ops.lean ====
section
/-! DEFINITION. The shared operations: one-byte memory access (20_memory.md), the pc write-back, and the two ways a
step ends the run, which are this block's counterpart of taking an exception (60_exceptions.md R209). The block has no
return from one (R210). -/

namespace Sys2Proof.Machine

/-! ## Memory -/

/-- What an address that is not listed reads as: the reset content 0x00 (10_state.md R34, R37). -/
def unlistedByte : Byte := 0

/-- The canonical form: addresses strictly rising and inside the address space, no pair that holds `unlistedByte`. -/
abbrev Memory.wf (m : Memory) : Prop :=
  m.Pairwise (fun p q => p.1 < q.1) ∧ ∀ p ∈ m, p.1 < Config.memSize ∧ p.2 ≠ unlistedByte

/-- The byte at an address (20_memory.md R55: a read changes nothing). -/
def Memory.read : Memory → Nat → Byte
  | [], _ => unlistedByte
  | (b, w) :: m, a => if b = a then w else Memory.read m a

/-- The pair (address, byte) before a memory, left out where the byte is what an unlisted address reads as. -/
def Memory.cons (a : Nat) (v : Byte) (m : Memory) : Memory :=
  if v = unlistedByte then m else (a, v) :: m

/-- Write one byte, keeping the canonical form. -/
def Memory.write : Memory → Nat → Byte → Memory
  | [], a, v => Memory.cons a v []
  | (b, w) :: m, a, v =>
    if a < b then Memory.cons a v ((b, w) :: m)
    else if a = b then Memory.cons a v m
    else (b, w) :: Memory.write m a v

/-- Write consecutive bytes from an address on. -/
def Memory.writeBytes : Memory → Nat → List Byte → Memory
  | m, _, [] => m
  | m, a, v :: vs => Memory.writeBytes (m.write a v) (a + 1) vs

/-- `MemRead(a, 1)`: defined only at the addresses 0x0000 to 0xFFFF (00_scope.md R15). -/
def State.memRead (s : State) (a : Nat) : Option Byte :=
  if a < Config.memSize then some (s.mem.read a) else none

/-- `n` consecutive bytes from an address on. -/
def bytesFrom (m : Memory) : Nat → Nat → List Byte
  | _, 0 => []
  | a, n + 1 => m.read a :: bytesFrom m (a + 1) n

/-- What a step can fetch: the bytes from the pc to the top of memory (20_memory.md R54, 40_decode_loop.md R106). -/
def State.fetchWindow (s : State) : List Byte :=
  bytesFrom s.mem s.pc.toNat (Config.memSize - s.pc.toNat)

/-! ## The program counter -/

/-- The write-back `min(p, 0xFFFF)` of an exact next pc (40_decode_loop.md R110; the spec's decision D3, log 7). -/
def writeBackPc (p : Nat) : Word :=
  BitVec.ofNat 16 (min p Config.pcLimit)

/-- `halt <reason>`: the run-state register becomes Halted, and nothing else is saved or changed: no mode, no stack,
no handler (00_scope.md R15, 60_exceptions.md R209). -/
def State.halt (s : State) (reason : HaltReason) : State :=
  { s with run := .halted reason }

/-- Steps 4 and 5: advance the pc by the consumed length, exactly, and end the run with PcOverflow when the exact next
pc reaches 0xFFFF (40_decode_loop.md R108, R110). Nothing else changes (R109). -/
def State.advance (s : State) (consumed : Nat) : State :=
  let p := s.pc.toNat + consumed
  let t := { s with pc := writeBackPc p }
  if Config.pcLimit ≤ p then t.halt .pcOverflow else t

/-- The meaning of every mapped row: skip `k` opcode bytes and `inline` operand bytes (40_decode_loop.md R117, R122). -/
def skip (k inline : Nat) (s : State) : Result :=
  .next (s.advance (k + inline))

/-- Step 3, the halt UnknownOpcode: the pc is past the opcode bytes, and the record holds the space, the opcode and
the instruction address; steps 4 and 5 are not performed (40_decode_loop.md R107, R111; decisions D3 to D5, log 7). -/
def haltUnknownOpcode (prefixed : Bool) (op : Byte) (s : State) : Result :=
  let t := { s with pc := writeBackPc (s.pc.toNat + opcodeLength prefixed) }
  .next (t.halt (.unknownOpcode prefixed op s.pc))

/-! ## The run-state register as a word -/

/-- The numeric code of a halt: the STATE field of the status word (60_exceptions.md R207). -/
def HaltReason.code : HaltReason → Nat
  | .pcOverflow => 1
  | .unknownOpcode _ _ _ => 2

/-- The packed status word: STATE in bits [1:0], PREFIXED in bit [2], OPCODE in bits [15:8], ADDRESS in bits [31:16],
every other bit zero (10_state.md R32; decision D15, log 7). -/
def RunState.statusWord : RunState → BitVec 32
  | .running => 0
  | .halted .pcOverflow => BitVec.ofNat 32 HaltReason.pcOverflow.code
  | .halted (.unknownOpcode prefixed op address) =>
    address ++ op ++ (0#5) ++ BitVec.ofBool prefixed ++
      BitVec.ofNat 2 (HaltReason.unknownOpcode prefixed op address).code

end Sys2Proof.Machine
end

