-- ==== Sys2Proof/Syntax.lean ====
section
/-! DEFINITION. Instructions as syntax: the five decoder-level rows of 30_encoding.md R77 and the 511 rows of
REF_CAT (41_catalog.md R154, R155; opcode_table.json). One constructor per instruction of the table, that is, per
mnemonic and operand shape; its typed operands select the table's row, so each row is one value of `Instr` (log 3).

Inline operand bytes are carried raw, in address order, and never combined (30_encoding.md R74). A byte is
`none` when it would lie past address 0xFFFF (40_decode_loop.md R113; log 6). -/

namespace Sys2Proof

/-- The eight operands of 8 bits in the table's order: B, C, D, E, H, L, [HL], A (41_catalog.md R155). -/
inductive Operand8
  | b | c | d | e | h | l | hlMem | a
  deriving DecidableEq, Repr

/-- The 16-bit operands of `LD rr,n16`, `INC rr`, `DEC rr` and `ADD HL,rr` (41_catalog.md R154). -/
inductive Operand16
  | bc | de | hl | sp
  deriving DecidableEq, Repr

/-- The operands of `PUSH` and `POP` in the table's order (41_catalog.md R154). -/
inductive StackOperand
  | bc | de | hl | af
  deriving DecidableEq, Repr

/-- The memory operands of the accumulator loads: [BC], [DE], [HL+], [HL-] (41_catalog.md R154). -/
inductive Indirect
  | bcMem | deMem | hlInc | hlDec
  deriving DecidableEq, Repr

/-- The conditions NZ, Z, NC, C as operand names (41_catalog.md R154). They are never evaluated (40_decode_loop.md R126). -/
inductive Cond
  | nz | z | nc | c
  deriving DecidableEq, Repr

/-- The decoder-level and reference formats of a row (30_encoding.md R77, R83). -/
inductive Format
  | unprefixedMapped | unprefixedUnknown | escape | cbMapped | cbUnknown
  | u1 | u2 | u3 | cb2
  deriving DecidableEq, Repr

/-- One instruction. The first five constructors are the decoder-level rows, which hold for every catalog; the
others are REF_CAT's rows. -/
inductive Instr
  -- decoder-level rows (30_encoding.md R77)
  /-- Row `U*`: an opcode that the catalog maps to `d`, and its inline operand bytes (R117). -/
  | unprefixedMapped (op : Byte) (d : Descriptor) (inline : List (Option Byte))
  /-- Row `U?`: an opcode that the catalog leaves unmapped (R124). -/
  | unprefixedUnknown (op : Byte)
  /-- Row `PREFIX`: the escape byte by itself (R104). -/
  | escape
  /-- Row `CB*`: a CB-space opcode that the catalog maps to `d`, and its inline operand bytes (R122). -/
  | cbMapped (op : Byte) (d : Descriptor) (inline : List (Option Byte))
  /-- Row `CB?`: a CB-space opcode that the catalog leaves unmapped (R125). -/
  | cbUnknown (op : Byte)
  -- loads
  | ldR16N16 (r : Operand16) (b0 b1 : Option Byte)
  | ldMemA (p : Indirect)
  | ldAMem (p : Indirect)
  | ldA16Sp (b0 b1 : Option Byte)
  | ldR8N8 (r : Operand8) (n8 : Option Byte)
  | ldR8R8 (dst src : Operand8)
  | ldA16A (b0 b1 : Option Byte)
  | ldAA16 (b0 b1 : Option Byte)
  | ldHlSpE8 (e8 : Option Byte)
  | ldSpHl
  | ldhA8A (a8 : Option Byte)
  | ldhAA8 (a8 : Option Byte)
  | ldhCA
  | ldhAC
  | pushPair (r : StackOperand)
  | popPair (r : StackOperand)
  -- arithmetic and logic
  | incR16 (r : Operand16)
  | decR16 (r : Operand16)
  | incR8 (r : Operand8)
  | decR8 (r : Operand8)
  | addHlR16 (r : Operand16)
  | addSpE8 (e8 : Option Byte)
  | addR8 (r : Operand8)
  | adcR8 (r : Operand8)
  | subR8 (r : Operand8)
  | sbcR8 (r : Operand8)
  | andR8 (r : Operand8)
  | xorR8 (r : Operand8)
  | orR8 (r : Operand8)
  | cpR8 (r : Operand8)
  | addN8 (n8 : Option Byte)
  | adcN8 (n8 : Option Byte)
  | subN8 (n8 : Option Byte)
  | sbcN8 (n8 : Option Byte)
  | andN8 (n8 : Option Byte)
  | xorN8 (n8 : Option Byte)
  | orN8 (n8 : Option Byte)
  | cpN8 (n8 : Option Byte)
  | rlca
  | rrca
  | rla
  | rra
  | daa
  | cpl
  | scf
  | ccf
  -- control transfer
  | jrE8 (e8 : Option Byte)
  | jrCondE8 (cond : Cond) (e8 : Option Byte)
  | jpA16 (b0 b1 : Option Byte)
  | jpCondA16 (cond : Cond) (b0 b1 : Option Byte)
  | jpHl
  | callA16 (b0 b1 : Option Byte)
  | callCondA16 (cond : Cond) (b0 b1 : Option Byte)
  | ret
  | retCond (cond : Cond)
  | reti
  /-- `RST`: the target named by the operand is `8 * target` (41_catalog.md R154). -/
  | rst (target : BitVec 3)
  -- system
  | nop
  | stopN8 (n8 : Option Byte)
  | halt
  | di
  | ei
  -- the eleven bytes with no real instruction, which REF_CAT maps (30_encoding.md R80)
  | illegalD3
  | illegalDB
  | illegalDD
  | illegalE3
  | illegalE4
  | illegalEB
  | illegalEC
  | illegalED
  | illegalF4
  | illegalFC
  | illegalFD
  -- the CB-prefixed space (41_catalog.md R155)
  | rlc (r : Operand8)
  | rrc (r : Operand8)
  | rl (r : Operand8)
  | rr (r : Operand8)
  | sla (r : Operand8)
  | sra (r : Operand8)
  | swap (r : Operand8)
  | srl (r : Operand8)
  | bit (n : BitVec 3) (r : Operand8)
  | res (n : BitVec 3) (r : Operand8)
  | setBit (n : BitVec 3) (r : Operand8)
  deriving DecidableEq, Repr

/-- The format of each instruction (30_encoding.md R83). -/
def Instr.format : Instr → Format
  | .unprefixedMapped _ _ _ => .unprefixedMapped
  | .unprefixedUnknown _ => .unprefixedUnknown
  | .escape => .escape
  | .cbMapped _ _ _ => .cbMapped
  | .cbUnknown _ => .cbUnknown
  | .ldR16N16 _ _ _ | .ldA16Sp _ _ | .ldA16A _ _ | .ldAA16 _ _ | .jpA16 _ _ | .jpCondA16 _ _ _
  | .callA16 _ _ | .callCondA16 _ _ _ => .u3
  | .ldR8N8 _ _ | .ldHlSpE8 _ | .ldhA8A _ | .ldhAA8 _ | .addSpE8 _ | .addN8 _ | .adcN8 _ | .subN8 _
  | .sbcN8 _ | .andN8 _ | .xorN8 _ | .orN8 _ | .cpN8 _ | .jrE8 _ | .jrCondE8 _ _ | .stopN8 _ => .u2
  | .ldMemA _ | .ldAMem _ | .ldR8R8 _ _ | .ldSpHl | .ldhCA | .ldhAC | .pushPair _ | .popPair _
  | .incR16 _ | .decR16 _ | .incR8 _ | .decR8 _ | .addHlR16 _ | .addR8 _ | .adcR8 _ | .subR8 _
  | .sbcR8 _ | .andR8 _ | .xorR8 _ | .orR8 _ | .cpR8 _ | .rlca | .rrca | .rla | .rra | .daa | .cpl
  | .scf | .ccf | .jpHl | .ret | .retCond _ | .reti | .rst _ | .nop | .halt | .di | .ei | .illegalD3
  | .illegalDB | .illegalDD | .illegalE3 | .illegalE4 | .illegalEB | .illegalEC | .illegalED
  | .illegalF4 | .illegalFC | .illegalFD => .u1
  | .rlc _ | .rrc _ | .rl _ | .rr _ | .sla _ | .sra _ | .swap _ | .srl _ | .bit _ _ | .res _ _
  | .setBit _ _ => .cb2

/-- Whether an instruction is a row of REF_CAT, not a decoder-level row. -/
def Instr.isReference (i : Instr) : Bool :=
  match i.format with
  | .u1 | .u2 | .u3 | .cb2 => true
  | .unprefixedMapped | .unprefixedUnknown | .escape | .cbMapped | .cbUnknown => false

end Sys2Proof
end

