-- ==== Sys2Proof/Machine/Arithmetic.lean ====
section
/-! DEFINITION. The reference rows named for arithmetic and logic on registers. None computes a result or writes a flag: each one
only advances the pc past its own bytes (00_scope.md R7, 40_decode_loop.md R117, R130). -/

namespace Sys2Proof.Machine

/-- `INC rr` (40_decode_loop.md R118). -/
def execIncR16 (_r : Operand16) (s : State) : Result :=
  skip 1 0 s

/-- `DEC rr` (40_decode_loop.md R118). -/
def execDecR16 (_r : Operand16) (s : State) : Result :=
  skip 1 0 s

/-- `INC r` (40_decode_loop.md R118). -/
def execIncR8 (_r : Operand8) (s : State) : Result :=
  skip 1 0 s

/-- `DEC r` (40_decode_loop.md R118). -/
def execDecR8 (_r : Operand8) (s : State) : Result :=
  skip 1 0 s

/-- `ADD HL,rr` (40_decode_loop.md R118). -/
def execAddHlR16 (_r : Operand16) (s : State) : Result :=
  skip 1 0 s

/-- `ADD SP,e8` (40_decode_loop.md R119). -/
def execAddSpE8 (_e8 : Option Byte) (s : State) : Result :=
  skip 1 1 s

/-- `ADD A,r` (40_decode_loop.md R118). -/
def execAddR8 (_r : Operand8) (s : State) : Result :=
  skip 1 0 s

/-- `ADC A,r` (40_decode_loop.md R118). -/
def execAdcR8 (_r : Operand8) (s : State) : Result :=
  skip 1 0 s

/-- `SUB A,r` (40_decode_loop.md R118). -/
def execSubR8 (_r : Operand8) (s : State) : Result :=
  skip 1 0 s

/-- `SBC A,r` (40_decode_loop.md R118). -/
def execSbcR8 (_r : Operand8) (s : State) : Result :=
  skip 1 0 s

/-- `AND A,r` (40_decode_loop.md R118). -/
def execAndR8 (_r : Operand8) (s : State) : Result :=
  skip 1 0 s

/-- `XOR A,r` (40_decode_loop.md R118). -/
def execXorR8 (_r : Operand8) (s : State) : Result :=
  skip 1 0 s

/-- `OR A,r` (40_decode_loop.md R118). -/
def execOrR8 (_r : Operand8) (s : State) : Result :=
  skip 1 0 s

/-- `CP A,r` (40_decode_loop.md R118). -/
def execCpR8 (_r : Operand8) (s : State) : Result :=
  skip 1 0 s

/-- `ADD A,n8` (40_decode_loop.md R119). -/
def execAddN8 (_n8 : Option Byte) (s : State) : Result :=
  skip 1 1 s

/-- `ADC A,n8` (40_decode_loop.md R119). -/
def execAdcN8 (_n8 : Option Byte) (s : State) : Result :=
  skip 1 1 s

/-- `SUB A,n8` (40_decode_loop.md R119). -/
def execSubN8 (_n8 : Option Byte) (s : State) : Result :=
  skip 1 1 s

/-- `SBC A,n8` (40_decode_loop.md R119). -/
def execSbcN8 (_n8 : Option Byte) (s : State) : Result :=
  skip 1 1 s

/-- `AND A,n8` (40_decode_loop.md R119). -/
def execAndN8 (_n8 : Option Byte) (s : State) : Result :=
  skip 1 1 s

/-- `XOR A,n8` (40_decode_loop.md R119). -/
def execXorN8 (_n8 : Option Byte) (s : State) : Result :=
  skip 1 1 s

/-- `OR A,n8` (40_decode_loop.md R119). -/
def execOrN8 (_n8 : Option Byte) (s : State) : Result :=
  skip 1 1 s

/-- `CP A,n8` (40_decode_loop.md R119). -/
def execCpN8 (_n8 : Option Byte) (s : State) : Result :=
  skip 1 1 s

/-- `RLCA` (40_decode_loop.md R118). -/
def execRlca (s : State) : Result :=
  skip 1 0 s

/-- `RRCA` (40_decode_loop.md R118). -/
def execRrca (s : State) : Result :=
  skip 1 0 s

/-- `RLA` (40_decode_loop.md R118). -/
def execRla (s : State) : Result :=
  skip 1 0 s

/-- `RRA` (40_decode_loop.md R118). -/
def execRra (s : State) : Result :=
  skip 1 0 s

/-- `DAA` (40_decode_loop.md R118). -/
def execDaa (s : State) : Result :=
  skip 1 0 s

/-- `CPL` (40_decode_loop.md R118). -/
def execCpl (s : State) : Result :=
  skip 1 0 s

/-- `SCF` (40_decode_loop.md R118). -/
def execScf (s : State) : Result :=
  skip 1 0 s

/-- `CCF` (40_decode_loop.md R118). -/
def execCcf (s : State) : Result :=
  skip 1 0 s

end Sys2Proof.Machine
end

