-- ==== Sys2Proof/Machine/CbSpace.lean ====
section
/-! DEFINITION. The CB-prefixed reference rows: two bytes each, no inline operand (40_decode_loop.md R122, R123). None shifts,
tests or writes a bit (00_scope.md R7). -/

namespace Sys2Proof.Machine

/-- `RLC r` (40_decode_loop.md R122, and R123 for `RLC B`). -/
def execRlc (_r : Operand8) (s : State) : Result :=
  skip 2 0 s

/-- `RRC r` (40_decode_loop.md R122). -/
def execRrc (_r : Operand8) (s : State) : Result :=
  skip 2 0 s

/-- `RL r` (40_decode_loop.md R122). -/
def execRl (_r : Operand8) (s : State) : Result :=
  skip 2 0 s

/-- `RR r` (40_decode_loop.md R122). -/
def execRr (_r : Operand8) (s : State) : Result :=
  skip 2 0 s

/-- `SLA r` (40_decode_loop.md R122). -/
def execSla (_r : Operand8) (s : State) : Result :=
  skip 2 0 s

/-- `SRA r` (40_decode_loop.md R122). -/
def execSra (_r : Operand8) (s : State) : Result :=
  skip 2 0 s

/-- `SWAP r` (40_decode_loop.md R122). -/
def execSwap (_r : Operand8) (s : State) : Result :=
  skip 2 0 s

/-- `SRL r` (40_decode_loop.md R122). -/
def execSrl (_r : Operand8) (s : State) : Result :=
  skip 2 0 s

/-- `BIT n,r` (40_decode_loop.md R122). -/
def execBit (_n : BitVec 3) (_r : Operand8) (s : State) : Result :=
  skip 2 0 s

/-- `RES n,r` (40_decode_loop.md R122). -/
def execRes (_n : BitVec 3) (_r : Operand8) (s : State) : Result :=
  skip 2 0 s

/-- `SET n,r` (40_decode_loop.md R122). -/
def execSetBit (_n : BitVec 3) (_r : Operand8) (s : State) : Result :=
  skip 2 0 s

end Sys2Proof.Machine
end

