-- ==== Sys2Proof/Machine/Control.lean ====
section
/-! DEFINITION. The reference rows named JR, JP, CALL, RET, RETI and RST. None transfers control, evaluates a condition or touches
the stack: each one only advances the pc past its own bytes (40_decode_loop.md R126). -/

namespace Sys2Proof.Machine

/-- `JR e8` (40_decode_loop.md R119). -/
def execJrE8 (_e8 : Option Byte) (s : State) : Result :=
  skip 1 1 s

/-- `JR cc,e8` (40_decode_loop.md R119). -/
def execJrCondE8 (_cond : Cond) (_e8 : Option Byte) (s : State) : Result :=
  skip 1 1 s

/-- `JP a16` (40_decode_loop.md R120). -/
def execJpA16 (_b0 : Option Byte) (_b1 : Option Byte) (s : State) : Result :=
  skip 1 2 s

/-- `JP cc,a16` (40_decode_loop.md R120). -/
def execJpCondA16 (_cond : Cond) (_b0 : Option Byte) (_b1 : Option Byte) (s : State) : Result :=
  skip 1 2 s

/-- `JP HL` (40_decode_loop.md R118). -/
def execJpHl (s : State) : Result :=
  skip 1 0 s

/-- `CALL a16` (40_decode_loop.md R120). -/
def execCallA16 (_b0 : Option Byte) (_b1 : Option Byte) (s : State) : Result :=
  skip 1 2 s

/-- `CALL cc,a16` (40_decode_loop.md R120). -/
def execCallCondA16 (_cond : Cond) (_b0 : Option Byte) (_b1 : Option Byte) (s : State) : Result :=
  skip 1 2 s

/-- `RET` (40_decode_loop.md R118). -/
def execRet (s : State) : Result :=
  skip 1 0 s

/-- `RET cc` (40_decode_loop.md R118). -/
def execRetCond (_cond : Cond) (s : State) : Result :=
  skip 1 0 s

/-- `RETI` (40_decode_loop.md R118). -/
def execReti (s : State) : Result :=
  skip 1 0 s

/-- `RST target` (40_decode_loop.md R118). -/
def execRst (_target : BitVec 3) (s : State) : Result :=
  skip 1 0 s

end Sys2Proof.Machine
end

