-- ==== Sys2Proof/Machine/DecoderRows.lean ====
section
/-! DEFINITION. The five decoder-level rows of 30_encoding.md R77, which hold for every catalog. -/

namespace Sys2Proof.Machine

/-- Row `U*`: skip one opcode byte and the entry's inline operand bytes (40_decode_loop.md R117). The advance is from
the operand lengths, whatever the entry's `bytes` says (R129). -/
def execUnprefixedMapped (_op : Byte) (d : Descriptor) (_inline : List (Option Byte)) (s : State) : Result :=
  skip 1 d.inlineLength s

/-- Row `U?`: halt with UnknownOpcode (40_decode_loop.md R124). -/
def execUnprefixedUnknown (op : Byte) (s : State) : Result :=
  haltUnknownOpcode false op s

/-- The escape under a catalog: fetch the byte after it, resolve it in the CB space, and finish the step as the rows
`CB*` and `CB?` do (40_decode_loop.md R104, R105). A second byte past 0xFFFF does not exist (R106, log 4). -/
def execEscapeWith (cat : Catalog) (s : State) : Result :=
  match s.memRead (s.pc.toNat + 1) with
  | none => .fault (.fetchOutsideMemory (s.pc.toNat + 1))
  | some op =>
    match cat.lookup true op with
    | none => haltUnknownOpcode true op s
    | some d => skip 2 d.inlineLength s

/-- Row `PREFIX`: the escape, under the catalog that `step` runs with (40_decode_loop.md R104; log 1, log 13). -/
def execEscape (s : State) : Result :=
  execEscapeWith refCat s

/-- Row `CB*`: skip two opcode bytes and the entry's inline operand bytes (40_decode_loop.md R122). -/
def execCbMapped (_op : Byte) (d : Descriptor) (_inline : List (Option Byte)) (s : State) : Result :=
  skip 2 d.inlineLength s

/-- Row `CB?`: halt with UnknownOpcode (40_decode_loop.md R125). -/
def execCbUnknown (op : Byte) (s : State) : Result :=
  haltUnknownOpcode true op s

end Sys2Proof.Machine
end

