-- ==== Sys2Proof/Machine/Illegal.lean ====
section
/-! DEFINITION. The eleven reference rows ILLEGAL_xx. REF_CAT maps them, so the decoder skips each as a 1-byte instruction
(30_encoding.md R80; PRESUMED, log 1). -/

namespace Sys2Proof.Machine

/-- `ILLEGAL_D3` (40_decode_loop.md R118). -/
def execIllegalD3 (s : State) : Result :=
  skip 1 0 s

/-- `ILLEGAL_DB` (40_decode_loop.md R118). -/
def execIllegalDB (s : State) : Result :=
  skip 1 0 s

/-- `ILLEGAL_DD` (40_decode_loop.md R118). -/
def execIllegalDD (s : State) : Result :=
  skip 1 0 s

/-- `ILLEGAL_E3` (40_decode_loop.md R118). -/
def execIllegalE3 (s : State) : Result :=
  skip 1 0 s

/-- `ILLEGAL_E4` (40_decode_loop.md R118). -/
def execIllegalE4 (s : State) : Result :=
  skip 1 0 s

/-- `ILLEGAL_EB` (40_decode_loop.md R118). -/
def execIllegalEB (s : State) : Result :=
  skip 1 0 s

/-- `ILLEGAL_EC` (40_decode_loop.md R118). -/
def execIllegalEC (s : State) : Result :=
  skip 1 0 s

/-- `ILLEGAL_ED` (40_decode_loop.md R118). -/
def execIllegalED (s : State) : Result :=
  skip 1 0 s

/-- `ILLEGAL_F4` (40_decode_loop.md R118). -/
def execIllegalF4 (s : State) : Result :=
  skip 1 0 s

/-- `ILLEGAL_FC` (40_decode_loop.md R118). -/
def execIllegalFC (s : State) : Result :=
  skip 1 0 s

/-- `ILLEGAL_FD` (40_decode_loop.md R118). -/
def execIllegalFD (s : State) : Result :=
  skip 1 0 s

end Sys2Proof.Machine
end

