-- ==== Sys2Proof/Machine/Loads.lean ====
section
/-! DEFINITION. The reference rows named LD, LDH, PUSH and POP. None reads or writes a register or data memory: each one only
advances the pc past its own bytes (40_decode_loop.md R127, 00_scope.md R7). -/

namespace Sys2Proof.Machine

/-- `LD rr,n16` (40_decode_loop.md R120). -/
def execLdR16N16 (_r : Operand16) (_b0 : Option Byte) (_b1 : Option Byte) (s : State) : Result :=
  skip 1 2 s

/-- `LD [rr],A` (40_decode_loop.md R118). -/
def execLdMemA (_p : Indirect) (s : State) : Result :=
  skip 1 0 s

/-- `LD A,[rr]` (40_decode_loop.md R118). -/
def execLdAMem (_p : Indirect) (s : State) : Result :=
  skip 1 0 s

/-- `LD [a16],SP` (40_decode_loop.md R120). -/
def execLdA16Sp (_b0 : Option Byte) (_b1 : Option Byte) (s : State) : Result :=
  skip 1 2 s

/-- `LD r,n8` (40_decode_loop.md R119). -/
def execLdR8N8 (_r : Operand8) (_n8 : Option Byte) (s : State) : Result :=
  skip 1 1 s

/-- `LD r,r'` (40_decode_loop.md R118). -/
def execLdR8R8 (_dst : Operand8) (_src : Operand8) (s : State) : Result :=
  skip 1 0 s

/-- `LD [a16],A` (40_decode_loop.md R120). -/
def execLdA16A (_b0 : Option Byte) (_b1 : Option Byte) (s : State) : Result :=
  skip 1 2 s

/-- `LD A,[a16]` (40_decode_loop.md R120). -/
def execLdAA16 (_b0 : Option Byte) (_b1 : Option Byte) (s : State) : Result :=
  skip 1 2 s

/-- `LD HL,SP+e8` (40_decode_loop.md R119). -/
def execLdHlSpE8 (_e8 : Option Byte) (s : State) : Result :=
  skip 1 1 s

/-- `LD SP,HL` (40_decode_loop.md R118). -/
def execLdSpHl (s : State) : Result :=
  skip 1 0 s

/-- `LDH [a8],A` (40_decode_loop.md R119). -/
def execLdhA8A (_a8 : Option Byte) (s : State) : Result :=
  skip 1 1 s

/-- `LDH A,[a8]` (40_decode_loop.md R119). -/
def execLdhAA8 (_a8 : Option Byte) (s : State) : Result :=
  skip 1 1 s

/-- `LDH [C],A` (40_decode_loop.md R118). -/
def execLdhCA (s : State) : Result :=
  skip 1 0 s

/-- `LDH A,[C]` (40_decode_loop.md R118). -/
def execLdhAC (s : State) : Result :=
  skip 1 0 s

/-- `PUSH rr` (40_decode_loop.md R118). -/
def execPushPair (_r : StackOperand) (s : State) : Result :=
  skip 1 0 s

/-- `POP rr` (40_decode_loop.md R118). -/
def execPopPair (_r : StackOperand) (s : State) : Result :=
  skip 1 0 s

end Sys2Proof.Machine
end

