-- ==== Sys2Proof/Machine/System.lean ====
section
/-! DEFINITION. The reference rows named NOP, STOP, HALT, DI and EI. None has a system effect: HALT and STOP do not stop the loop,
DI and EI change no interrupt state (40_decode_loop.md R121, R128; 60_exceptions.md R211, R217). -/

namespace Sys2Proof.Machine

/-- `NOP` (40_decode_loop.md R121). -/
def execNop (s : State) : Result :=
  skip 1 0 s

/-- `STOP n8` (40_decode_loop.md R119). -/
def execStopN8 (_n8 : Option Byte) (s : State) : Result :=
  skip 1 1 s

/-- `HALT` (40_decode_loop.md R118). -/
def execHalt (s : State) : Result :=
  skip 1 0 s

/-- `DI` (40_decode_loop.md R118). -/
def execDi (s : State) : Result :=
  skip 1 0 s

/-- `EI` (40_decode_loop.md R118). -/
def execEi (s : State) : Result :=
  skip 1 0 s

end Sys2Proof.Machine
end

