-- ==== Sys2Proof/Machine/Dispatch.lean ====
section
/-! DEFINITION. One arm per instruction, each a direct call of its meaning. -/

namespace Sys2Proof.Machine

def exec (i : Instr) (s : State) : Host.Outcome State Fault Refusal :=
  match i with
  | .unprefixedMapped op d inline => Sys2Proof.Machine.execUnprefixedMapped op d inline s
  | .unprefixedUnknown op => Sys2Proof.Machine.execUnprefixedUnknown op s
  | .escape => Sys2Proof.Machine.execEscape s
  | .cbMapped op d inline => Sys2Proof.Machine.execCbMapped op d inline s
  | .cbUnknown op => Sys2Proof.Machine.execCbUnknown op s
  | .ldR16N16 r b0 b1 => Sys2Proof.Machine.execLdR16N16 r b0 b1 s
  | .ldMemA p => Sys2Proof.Machine.execLdMemA p s
  | .ldAMem p => Sys2Proof.Machine.execLdAMem p s
  | .ldA16Sp b0 b1 => Sys2Proof.Machine.execLdA16Sp b0 b1 s
  | .ldR8N8 r n8 => Sys2Proof.Machine.execLdR8N8 r n8 s
  | .ldR8R8 dst src => Sys2Proof.Machine.execLdR8R8 dst src s
  | .ldA16A b0 b1 => Sys2Proof.Machine.execLdA16A b0 b1 s
  | .ldAA16 b0 b1 => Sys2Proof.Machine.execLdAA16 b0 b1 s
  | .ldHlSpE8 e8 => Sys2Proof.Machine.execLdHlSpE8 e8 s
  | .ldSpHl => Sys2Proof.Machine.execLdSpHl s
  | .ldhA8A a8 => Sys2Proof.Machine.execLdhA8A a8 s
  | .ldhAA8 a8 => Sys2Proof.Machine.execLdhAA8 a8 s
  | .ldhCA => Sys2Proof.Machine.execLdhCA s
  | .ldhAC => Sys2Proof.Machine.execLdhAC s
  | .pushPair r => Sys2Proof.Machine.execPushPair r s
  | .popPair r => Sys2Proof.Machine.execPopPair r s
  | .incR16 r => Sys2Proof.Machine.execIncR16 r s
  | .decR16 r => Sys2Proof.Machine.execDecR16 r s
  | .incR8 r => Sys2Proof.Machine.execIncR8 r s
  | .decR8 r => Sys2Proof.Machine.execDecR8 r s
  | .addHlR16 r => Sys2Proof.Machine.execAddHlR16 r s
  | .addSpE8 e8 => Sys2Proof.Machine.execAddSpE8 e8 s
  | .addR8 r => Sys2Proof.Machine.execAddR8 r s
  | .adcR8 r => Sys2Proof.Machine.execAdcR8 r s
  | .subR8 r => Sys2Proof.Machine.execSubR8 r s
  | .sbcR8 r => Sys2Proof.Machine.execSbcR8 r s
  | .andR8 r => Sys2Proof.Machine.execAndR8 r s
  | .xorR8 r => Sys2Proof.Machine.execXorR8 r s
  | .orR8 r => Sys2Proof.Machine.execOrR8 r s
  | .cpR8 r => Sys2Proof.Machine.execCpR8 r s
  | .addN8 n8 => Sys2Proof.Machine.execAddN8 n8 s
  | .adcN8 n8 => Sys2Proof.Machine.execAdcN8 n8 s
  | .subN8 n8 => Sys2Proof.Machine.execSubN8 n8 s
  | .sbcN8 n8 => Sys2Proof.Machine.execSbcN8 n8 s
  | .andN8 n8 => Sys2Proof.Machine.execAndN8 n8 s
  | .xorN8 n8 => Sys2Proof.Machine.execXorN8 n8 s
  | .orN8 n8 => Sys2Proof.Machine.execOrN8 n8 s
  | .cpN8 n8 => Sys2Proof.Machine.execCpN8 n8 s
  | .rlca => Sys2Proof.Machine.execRlca s
  | .rrca => Sys2Proof.Machine.execRrca s
  | .rla => Sys2Proof.Machine.execRla s
  | .rra => Sys2Proof.Machine.execRra s
  | .daa => Sys2Proof.Machine.execDaa s
  | .cpl => Sys2Proof.Machine.execCpl s
  | .scf => Sys2Proof.Machine.execScf s
  | .ccf => Sys2Proof.Machine.execCcf s
  | .jrE8 e8 => Sys2Proof.Machine.execJrE8 e8 s
  | .jrCondE8 cond e8 => Sys2Proof.Machine.execJrCondE8 cond e8 s
  | .jpA16 b0 b1 => Sys2Proof.Machine.execJpA16 b0 b1 s
  | .jpCondA16 cond b0 b1 => Sys2Proof.Machine.execJpCondA16 cond b0 b1 s
  | .jpHl => Sys2Proof.Machine.execJpHl s
  | .callA16 b0 b1 => Sys2Proof.Machine.execCallA16 b0 b1 s
  | .callCondA16 cond b0 b1 => Sys2Proof.Machine.execCallCondA16 cond b0 b1 s
  | .ret => Sys2Proof.Machine.execRet s
  | .retCond cond => Sys2Proof.Machine.execRetCond cond s
  | .reti => Sys2Proof.Machine.execReti s
  | .rst target => Sys2Proof.Machine.execRst target s
  | .nop => Sys2Proof.Machine.execNop s
  | .stopN8 n8 => Sys2Proof.Machine.execStopN8 n8 s
  | .halt => Sys2Proof.Machine.execHalt s
  | .di => Sys2Proof.Machine.execDi s
  | .ei => Sys2Proof.Machine.execEi s
  | .illegalD3 => Sys2Proof.Machine.execIllegalD3 s
  | .illegalDB => Sys2Proof.Machine.execIllegalDB s
  | .illegalDD => Sys2Proof.Machine.execIllegalDD s
  | .illegalE3 => Sys2Proof.Machine.execIllegalE3 s
  | .illegalE4 => Sys2Proof.Machine.execIllegalE4 s
  | .illegalEB => Sys2Proof.Machine.execIllegalEB s
  | .illegalEC => Sys2Proof.Machine.execIllegalEC s
  | .illegalED => Sys2Proof.Machine.execIllegalED s
  | .illegalF4 => Sys2Proof.Machine.execIllegalF4 s
  | .illegalFC => Sys2Proof.Machine.execIllegalFC s
  | .illegalFD => Sys2Proof.Machine.execIllegalFD s
  | .rlc r => Sys2Proof.Machine.execRlc r s
  | .rrc r => Sys2Proof.Machine.execRrc r s
  | .rl r => Sys2Proof.Machine.execRl r s
  | .rr r => Sys2Proof.Machine.execRr r s
  | .sla r => Sys2Proof.Machine.execSla r s
  | .sra r => Sys2Proof.Machine.execSra r s
  | .swap r => Sys2Proof.Machine.execSwap r s
  | .srl r => Sys2Proof.Machine.execSrl r s
  | .bit n r => Sys2Proof.Machine.execBit n r s
  | .res n r => Sys2Proof.Machine.execRes n r s
  | .setBit n r => Sys2Proof.Machine.execSetBit n r s

end Sys2Proof.Machine
end

