-- ==== Sys2Proof/WellFormed.lean ====
section
/-! DEFINITION. Which terms of `Instr` are instructions: the checks that the types do not make. -/

namespace Sys2Proof

/-- Operand bytes are absent only from some point on: a present byte never follows an absent one, because the
absent ones are those past address 0xFFFF (40_decode_loop.md R113). -/
def presentFirst : List (Option Byte) → Bool
  | [] => true
  | some _ :: bs => presentFirst bs
  | none :: bs => bs.all fun b => b.isNone

/-- The well-formed instructions.
* An unprefixed opcode is not the escape byte (30_encoding.md R70, R75).
* A generic mapped row has as many operand bytes as its entry's static lengths add up to (30_encoding.md R72).
* `LD [HL],[HL]` is no row: its place in the grid is HALT's (41_catalog.md R154).
* Absent operand bytes come last (40_decode_loop.md R113). -/
def Instr.wf : Instr → Bool
  | .unprefixedMapped op d inline =>
    op != Config.escapeByte && inline.length == d.inlineLength && presentFirst inline
  | .unprefixedUnknown op => op != Config.escapeByte
  | .cbMapped _ d inline => inline.length == d.inlineLength && presentFirst inline
  | .ldR8R8 dst src => !(dst == .hlMem && src == .hlMem)
  | .ldR16N16 _ b0 b1 | .ldA16Sp b0 b1 | .ldA16A b0 b1 | .ldAA16 b0 b1 | .jpA16 b0 b1 | .jpCondA16 _ b0 b1
  | .callA16 b0 b1 | .callCondA16 _ b0 b1 => presentFirst [b0, b1]
  | .escape | .cbUnknown _
  | .ldMemA _ | .ldAMem _ | .ldR8N8 _ _ | .ldHlSpE8 _ | .ldSpHl | .ldhA8A _ | .ldhAA8 _ | .ldhCA | .ldhAC
  | .pushPair _ | .popPair _ | .incR16 _ | .decR16 _ | .incR8 _ | .decR8 _ | .addHlR16 _ | .addSpE8 _
  | .addR8 _ | .adcR8 _ | .subR8 _ | .sbcR8 _ | .andR8 _ | .xorR8 _ | .orR8 _ | .cpR8 _
  | .addN8 _ | .adcN8 _ | .subN8 _ | .sbcN8 _ | .andN8 _ | .xorN8 _ | .orN8 _ | .cpN8 _
  | .rlca | .rrca | .rla | .rra | .daa | .cpl | .scf | .ccf
  | .jrE8 _ | .jrCondE8 _ _ | .jpHl | .ret | .retCond _ | .reti | .rst _
  | .nop | .stopN8 _ | .halt | .di | .ei
  | .illegalD3 | .illegalDB | .illegalDD | .illegalE3 | .illegalE4 | .illegalEB | .illegalEC | .illegalED
  | .illegalF4 | .illegalFC | .illegalFD
  | .rlc _ | .rrc _ | .rl _ | .rr _ | .sla _ | .sra _ | .swap _ | .srl _ | .bit _ _ | .res _ _
  | .setBit _ _ => true

/-- A decoder-level row agrees with the catalog it was decoded under (30_encoding.md R77). The escape stands for
itself in every catalog; a REF_CAT row is no row of this decoder. -/
def Instr.inCatalog (cat : Catalog) : Instr → Prop
  | .unprefixedMapped op d _ => cat.lookup false op = some d
  | .unprefixedUnknown op => cat.lookup false op = none
  | .cbMapped op d _ => cat.lookup true op = some d
  | .cbUnknown op => cat.lookup true op = none
  | i => i = .escape

end Sys2Proof
end

