-- ==== Sys2Proof/Decode.lean ====
section
/-! DEFINITION. The decoder and the encoder (30_encoding.md R70 to R83).

`decodeWith cat` is the block's decoder for any catalog: it answers the decoder-level rows of R77. `decode` reads the
rows of REF_CAT, laid out as the grid of 41_catalog.md R154 for the unprefixed space and by the bit fields of R155 for
the CB space. Both are total on any bytes. -/

namespace Sys2Proof

/-- Why no instruction is read. The catalog's gaps are no reason: an unmapped opcode IS a row (`U?`, `CB?`), whose
meaning is the halt UnknownOpcode (40_decode_loop.md R107). -/
inductive DecodeError
  /-- There is no byte to decode. -/
  | noByte
  deriving DecidableEq, Repr

/-! ## Operand bytes -/

/-- The next `n` inline operand bytes, a missing one as `none`, and the bytes after them (30_encoding.md R73,
40_decode_loop.md R113). -/
def takeInline : Nat → List Byte → List (Option Byte) × List Byte
  | 0, bs => ([], bs)
  | n + 1, [] => (none :: (takeInline n []).1, [])
  | n + 1, b :: bs => (some b :: (takeInline n bs).1, (takeInline n bs).2)

/-! ## The decoder for any catalog -/

/-- The CB-prefixed rows: the opcode after the escape, looked up in the CB space (30_encoding.md R77). -/
def decodeCbWith (cat : Catalog) (op : Byte) (bs : List Byte) : Instr × List Byte :=
  match cat.lookup true op with
  | none => (.cbUnknown op, bs)
  | some d => (.cbMapped op d (takeInline d.inlineLength bs).1, (takeInline d.inlineLength bs).2)

/-- The unprefixed rows (30_encoding.md R77). -/
def decodeUnprefixedWith (cat : Catalog) (op : Byte) (bs : List Byte) : Instr × List Byte :=
  match cat.lookup false op with
  | none => (.unprefixedUnknown op, bs)
  | some d => (.unprefixedMapped op d (takeInline d.inlineLength bs).1, (takeInline d.inlineLength bs).2)

/-- The decoder under a catalog (30_encoding.md R71, R81): the first byte alone chooses the space, and only it is
compared with the escape. It answers the instruction and the bytes after it. -/
def decodeWith (cat : Catalog) : List Byte → Except DecodeError (Instr × List Byte)
  | [] => .error .noByte
  | b :: bs =>
    if b = Config.escapeByte then
      match bs with
      | [] => .ok (.escape, [])
      | op :: bs => .ok (decodeCbWith cat op bs)
    else .ok (decodeUnprefixedWith cat b bs)

/-! ## The rows of REF_CAT -/

/-- A cell of the decoding grid: an instruction without operand bytes, or one that takes one or two of them. -/
inductive Row
  | len1 (i : Instr)
  | len2 (i : Option Byte → Instr)
  | len3 (i : Option Byte → Option Byte → Instr)

/-- The eight 8-bit operands in the order of their codes (41_catalog.md R155). -/
def operands8 : List Operand8 := [.b, .c, .d, .e, .h, .l, .hlMem, .a]

/-- The operand with a three-bit code (41_catalog.md R155). -/
def operand8OfCode (code : BitVec 3) : Operand8 :=
  match code.toNat with
  | 0 => .b
  | 1 => .c
  | 2 => .d
  | 3 => .e
  | 4 => .h
  | 5 => .l
  | 6 => .hlMem
  | _ => .a

/-- Row 0x (41_catalog.md R154). -/
def row0 : List Row :=
  [.len1 .nop, .len3 (.ldR16N16 .bc), .len1 (.ldMemA .bcMem), .len1 (.incR16 .bc),
   .len1 (.incR8 .b), .len1 (.decR8 .b), .len2 (.ldR8N8 .b), .len1 .rlca,
   .len3 .ldA16Sp, .len1 (.addHlR16 .bc), .len1 (.ldAMem .bcMem), .len1 (.decR16 .bc),
   .len1 (.incR8 .c), .len1 (.decR8 .c), .len2 (.ldR8N8 .c), .len1 .rrca]

/-- Row 1x (41_catalog.md R154). -/
def row1 : List Row :=
  [.len2 .stopN8, .len3 (.ldR16N16 .de), .len1 (.ldMemA .deMem), .len1 (.incR16 .de),
   .len1 (.incR8 .d), .len1 (.decR8 .d), .len2 (.ldR8N8 .d), .len1 .rla,
   .len2 .jrE8, .len1 (.addHlR16 .de), .len1 (.ldAMem .deMem), .len1 (.decR16 .de),
   .len1 (.incR8 .e), .len1 (.decR8 .e), .len2 (.ldR8N8 .e), .len1 .rra]

/-- Row 2x (41_catalog.md R154). -/
def row2 : List Row :=
  [.len2 (.jrCondE8 .nz), .len3 (.ldR16N16 .hl), .len1 (.ldMemA .hlInc), .len1 (.incR16 .hl),
   .len1 (.incR8 .h), .len1 (.decR8 .h), .len2 (.ldR8N8 .h), .len1 .daa,
   .len2 (.jrCondE8 .z), .len1 (.addHlR16 .hl), .len1 (.ldAMem .hlInc), .len1 (.decR16 .hl),
   .len1 (.incR8 .l), .len1 (.decR8 .l), .len2 (.ldR8N8 .l), .len1 .cpl]

/-- Row 3x (41_catalog.md R154). -/
def row3 : List Row :=
  [.len2 (.jrCondE8 .nc), .len3 (.ldR16N16 .sp), .len1 (.ldMemA .hlDec), .len1 (.incR16 .sp),
   .len1 (.incR8 .hlMem), .len1 (.decR8 .hlMem), .len2 (.ldR8N8 .hlMem), .len1 .scf,
   .len2 (.jrCondE8 .c), .len1 (.addHlR16 .sp), .len1 (.ldAMem .hlDec), .len1 (.decR16 .sp),
   .len1 (.incR8 .a), .len1 (.decR8 .a), .len2 (.ldR8N8 .a), .len1 .ccf]

/-- Eight one-byte rows over the eight 8-bit operands. -/
def rows8 (i : Operand8 → Instr) : List Row :=
  operands8.map fun r => .len1 (i r)

/-- Rows 4x to 7x: `LD r,r'`, with HALT in the place of `LD [HL],[HL]` (41_catalog.md R154). -/
def rowsLoads : List Row :=
  rows8 (.ldR8R8 .b) ++ rows8 (.ldR8R8 .c) ++ rows8 (.ldR8R8 .d) ++ rows8 (.ldR8R8 .e) ++
  rows8 (.ldR8R8 .h) ++ rows8 (.ldR8R8 .l) ++ (rows8 (.ldR8R8 .hlMem)).set 6 (.len1 .halt) ++ rows8 (.ldR8R8 .a)

/-- Rows 8x to Bx (41_catalog.md R154). -/
def rowsAlu : List Row :=
  rows8 .addR8 ++ rows8 .adcR8 ++ rows8 .subR8 ++ rows8 .sbcR8 ++
  rows8 .andR8 ++ rows8 .xorR8 ++ rows8 .orR8 ++ rows8 .cpR8

/-- Row Cx; the 0xCB cell is the escape, which the decoder takes before it reads the grid (41_catalog.md R154). -/
def rowC : List Row :=
  [.len1 (.retCond .nz), .len1 (.popPair .bc), .len3 (.jpCondA16 .nz), .len3 .jpA16,
   .len3 (.callCondA16 .nz), .len1 (.pushPair .bc), .len2 .addN8, .len1 (.rst 0),
   .len1 (.retCond .z), .len1 .ret, .len3 (.jpCondA16 .z), .len1 .escape,
   .len3 (.callCondA16 .z), .len3 .callA16, .len2 .adcN8, .len1 (.rst 1)]

/-- Row Dx (41_catalog.md R154). -/
def rowD : List Row :=
  [.len1 (.retCond .nc), .len1 (.popPair .de), .len3 (.jpCondA16 .nc), .len1 .illegalD3,
   .len3 (.callCondA16 .nc), .len1 (.pushPair .de), .len2 .subN8, .len1 (.rst 2),
   .len1 (.retCond .c), .len1 .reti, .len3 (.jpCondA16 .c), .len1 .illegalDB,
   .len3 (.callCondA16 .c), .len1 .illegalDD, .len2 .sbcN8, .len1 (.rst 3)]

/-- Row Ex (41_catalog.md R154). -/
def rowE : List Row :=
  [.len2 .ldhA8A, .len1 (.popPair .hl), .len1 .ldhCA, .len1 .illegalE3,
   .len1 .illegalE4, .len1 (.pushPair .hl), .len2 .andN8, .len1 (.rst 4),
   .len2 .addSpE8, .len1 .jpHl, .len3 .ldA16A, .len1 .illegalEB,
   .len1 .illegalEC, .len1 .illegalED, .len2 .xorN8, .len1 (.rst 5)]

/-- Row Fx (41_catalog.md R154). -/
def rowF : List Row :=
  [.len2 .ldhAA8, .len1 (.popPair .af), .len1 .ldhAC, .len1 .di,
   .len1 .illegalF4, .len1 (.pushPair .af), .len2 .orN8, .len1 (.rst 6),
   .len2 .ldHlSpE8, .len1 .ldSpHl, .len3 .ldAA16, .len1 .ei,
   .len1 .illegalFC, .len1 .illegalFD, .len2 .cpN8, .len1 (.rst 7)]

/-- The unprefixed rows, by opcode (41_catalog.md R154). -/
def rowsUnprefixed : List Row :=
  row0 ++ row1 ++ row2 ++ row3 ++ rowsLoads ++ rowsAlu ++ rowC ++ rowD ++ rowE ++ rowF

/-- The operand bytes of a row, from the bytes after its opcode (30_encoding.md R73). -/
def Row.read : Row → List Byte → Instr × List Byte
  | .len1 i, bs => (i, bs)
  | .len2 i, [] => (i none, [])
  | .len2 i, b :: bs => (i (some b), bs)
  | .len3 i, [] => (i none none, [])
  | .len3 i, [b] => (i (some b) none, [])
  | .len3 i, b :: c :: bs => (i (some b) (some c), bs)

/-- An unprefixed row of REF_CAT. Every key has one (41_catalog.md R156), so the row `U?` is never reached. -/
def decodeUnprefixed (op : Byte) (bs : List Byte) : Instr × List Byte :=
  match rowsUnprefixed[op.toNat]? with
  | some row => row.read bs
  | none => (.unprefixedUnknown op, bs)

/-- The shift and rotate instructions of the CB space, by bits [5:3] (41_catalog.md R155). -/
def shiftOfCode (code : BitVec 3) (r : Operand8) : Instr :=
  match code.toNat with
  | 0 => .rlc r
  | 1 => .rrc r
  | 2 => .rl r
  | 3 => .rr r
  | 4 => .sla r
  | 5 => .sra r
  | 6 => .swap r
  | _ => .srl r

/-- A CB row of REF_CAT, by the bit fields of its opcode (41_catalog.md R155). -/
def decodeCb (op : Byte) : Instr :=
  match (op.extractLsb' 6 2).toNat with
  | 0 => shiftOfCode (op.extractLsb' 3 3) (operand8OfCode (op.extractLsb' 0 3))
  | 1 => .bit (op.extractLsb' 3 3) (operand8OfCode (op.extractLsb' 0 3))
  | 2 => .res (op.extractLsb' 3 3) (operand8OfCode (op.extractLsb' 0 3))
  | _ => .setBit (op.extractLsb' 3 3) (operand8OfCode (op.extractLsb' 0 3))

/-- The decoder under REF_CAT: the table's own rows (30_encoding.md R71, R81, R83). -/
def decode : List Byte → Except DecodeError (Instr × List Byte)
  | [] => .error .noByte
  | b :: bs =>
    if b = Config.escapeByte then
      match bs with
      | [] => .ok (.escape, [])
      | op :: bs => .ok (decodeCb op, bs)
    else .ok (decodeUnprefixed b bs)

/-! ## The encoder -/

/-- The three-bit code of an 8-bit operand (41_catalog.md R155). -/
def Operand8.code : Operand8 → Byte
  | .b => 0
  | .c => 1
  | .d => 2
  | .e => 3
  | .h => 4
  | .l => 5
  | .hlMem => 6
  | .a => 7

/-- The grid row of a 16-bit operand: 0x, 1x, 2x, 3x (41_catalog.md R154). -/
def Operand16.row : Operand16 → Byte
  | .bc => 0x00
  | .de => 0x10
  | .hl => 0x20
  | .sp => 0x30

/-- The grid row of a stack operand, counted from Cx (41_catalog.md R154). -/
def StackOperand.row : StackOperand → Byte
  | .bc => 0x00
  | .de => 0x10
  | .hl => 0x20
  | .af => 0x30

/-- The grid row of an indirect operand: 0x, 1x, 2x, 3x (41_catalog.md R154). -/
def Indirect.row : Indirect → Byte
  | .bcMem => 0x00
  | .deMem => 0x10
  | .hlInc => 0x20
  | .hlDec => 0x30

/-- The place of a condition in the grid, as an offset from the NZ form (41_catalog.md R154). -/
def Cond.offset : Cond → Byte
  | .nz => 0x00
  | .z => 0x08
  | .nc => 0x10
  | .c => 0x18

/-- A three-bit field at bits [5:3] of an opcode (41_catalog.md R155). -/
def field53 (n : BitVec 3) : Byte := 8 * n.setWidth 8

/-- Whether an instruction has the format CB, with the escape byte before its opcode (30_encoding.md R70). -/
def Instr.prefixed (i : Instr) : Bool :=
  match i.format with
  | .cbMapped | .cbUnknown | .cb2 => true
  | .unprefixedMapped | .unprefixedUnknown | .escape | .u1 | .u2 | .u3 => false

/-- The opcode byte of an instruction within its space (opcode_table.json; 41_catalog.md R154, R155). -/
def Instr.opcode : Instr → Byte
  | .unprefixedMapped op _ _ => op
  | .unprefixedUnknown op => op
  | .escape => 0xCB
  | .cbMapped op _ _ => op
  | .cbUnknown op => op
  | .ldR16N16 r _ _ => 0x01 + r.row
  | .ldMemA p => 0x02 + p.row
  | .ldAMem p => 0x0A + p.row
  | .ldA16Sp _ _ => 0x08
  | .ldR8N8 r _ => 0x06 + 8 * r.code
  | .ldR8R8 dst src => 0x40 + 8 * dst.code + src.code
  | .ldA16A _ _ => 0xEA
  | .ldAA16 _ _ => 0xFA
  | .ldHlSpE8 _ => 0xF8
  | .ldSpHl => 0xF9
  | .ldhA8A _ => 0xE0
  | .ldhAA8 _ => 0xF0
  | .ldhCA => 0xE2
  | .ldhAC => 0xF2
  | .pushPair r => 0xC5 + r.row
  | .popPair r => 0xC1 + r.row
  | .incR16 r => 0x03 + r.row
  | .decR16 r => 0x0B + r.row
  | .incR8 r => 0x04 + 8 * r.code
  | .decR8 r => 0x05 + 8 * r.code
  | .addHlR16 r => 0x09 + r.row
  | .addSpE8 _ => 0xE8
  | .addR8 r => 0x80 + r.code
  | .adcR8 r => 0x88 + r.code
  | .subR8 r => 0x90 + r.code
  | .sbcR8 r => 0x98 + r.code
  | .andR8 r => 0xA0 + r.code
  | .xorR8 r => 0xA8 + r.code
  | .orR8 r => 0xB0 + r.code
  | .cpR8 r => 0xB8 + r.code
  | .addN8 _ => 0xC6
  | .adcN8 _ => 0xCE
  | .subN8 _ => 0xD6
  | .sbcN8 _ => 0xDE
  | .andN8 _ => 0xE6
  | .xorN8 _ => 0xEE
  | .orN8 _ => 0xF6
  | .cpN8 _ => 0xFE
  | .rlca => 0x07
  | .rrca => 0x0F
  | .rla => 0x17
  | .rra => 0x1F
  | .daa => 0x27
  | .cpl => 0x2F
  | .scf => 0x37
  | .ccf => 0x3F
  | .jrE8 _ => 0x18
  | .jrCondE8 cond _ => 0x20 + cond.offset
  | .jpA16 _ _ => 0xC3
  | .jpCondA16 cond _ _ => 0xC2 + cond.offset
  | .jpHl => 0xE9
  | .callA16 _ _ => 0xCD
  | .callCondA16 cond _ _ => 0xC4 + cond.offset
  | .ret => 0xC9
  | .retCond cond => 0xC0 + cond.offset
  | .reti => 0xD9
  | .rst target => 0xC7 + field53 target
  | .nop => 0x00
  | .stopN8 _ => 0x10
  | .halt => 0x76
  | .di => 0xF3
  | .ei => 0xFB
  | .illegalD3 => 0xD3
  | .illegalDB => 0xDB
  | .illegalDD => 0xDD
  | .illegalE3 => 0xE3
  | .illegalE4 => 0xE4
  | .illegalEB => 0xEB
  | .illegalEC => 0xEC
  | .illegalED => 0xED
  | .illegalF4 => 0xF4
  | .illegalFC => 0xFC
  | .illegalFD => 0xFD
  | .rlc r => 0x00 + r.code
  | .rrc r => 0x08 + r.code
  | .rl r => 0x10 + r.code
  | .rr r => 0x18 + r.code
  | .sla r => 0x20 + r.code
  | .sra r => 0x28 + r.code
  | .swap r => 0x30 + r.code
  | .srl r => 0x38 + r.code
  | .bit n r => 0x40 + field53 n + r.code
  | .res n r => 0x80 + field53 n + r.code
  | .setBit n r => 0xC0 + field53 n + r.code

/-- The inline operand bytes of an instruction, in address order (30_encoding.md R73). -/
def Instr.inline : Instr → List (Option Byte)
  | .unprefixedMapped _ _ inline | .cbMapped _ _ inline => inline
  | .ldR16N16 _ b0 b1 | .ldA16Sp b0 b1 | .ldA16A b0 b1 | .ldAA16 b0 b1 | .jpA16 b0 b1 | .jpCondA16 _ b0 b1
  | .callA16 b0 b1 | .callCondA16 _ b0 b1 => [b0, b1]
  | .ldR8N8 _ b | .ldHlSpE8 b | .ldhA8A b | .ldhAA8 b | .addSpE8 b
  | .addN8 b | .adcN8 b | .subN8 b | .sbcN8 b | .andN8 b | .xorN8 b | .orN8 b | .cpN8 b
  | .jrE8 b | .jrCondE8 _ b | .stopN8 b => [b]
  | .unprefixedUnknown _ | .escape | .cbUnknown _
  | .ldMemA _ | .ldAMem _ | .ldR8R8 _ _ | .ldSpHl | .ldhCA | .ldhAC
  | .pushPair _ | .popPair _ | .incR16 _ | .decR16 _ | .incR8 _ | .decR8 _ | .addHlR16 _
  | .addR8 _ | .adcR8 _ | .subR8 _ | .sbcR8 _ | .andR8 _ | .xorR8 _ | .orR8 _ | .cpR8 _
  | .rlca | .rrca | .rla | .rra | .daa | .cpl | .scf | .ccf
  | .jpHl | .ret | .retCond _ | .reti | .rst _ | .nop | .halt | .di | .ei
  | .illegalD3 | .illegalDB | .illegalDD | .illegalE3 | .illegalE4 | .illegalEB | .illegalEC | .illegalED
  | .illegalF4 | .illegalFC | .illegalFD
  | .rlc _ | .rrc _ | .rl _ | .rr _ | .sla _ | .sra _ | .swap _ | .srl _ | .bit _ _ | .res _ _
  | .setBit _ _ => []

/-- The opcode bytes of an instruction: `k` of them (30_encoding.md R70). -/
def Instr.opcodeBytes (i : Instr) : List Byte :=
  if i.prefixed then [Config.escapeByte, i.opcode] else [i.opcode]

/-- The length `L = k + S` of an instruction (30_encoding.md R72), the absent operand bytes counted. -/
def Instr.length (i : Instr) : Nat :=
  opcodeLength i.prefixed + i.inline.length

/-- No operand byte is absent: the instruction lies in memory as a whole. -/
def Instr.complete (i : Instr) : Bool :=
  i.inline.all fun b => b.isSome

/-- The bytes of an instruction, in address order: its opcode bytes and the operand bytes that are present
(30_encoding.md R70). -/
def encode (i : Instr) : List Byte :=
  i.opcodeBytes ++ i.inline.reduceOption

/-! ## Words as opcode_table.json numbers them -/

/-- The three bytes, in address order, of the table word `w` of `nbits` bits, zeros after it. The table numbers a
CB row as a big-endian 16-bit value, the escape byte in bits 15..8 (30_encoding.md R83); every other word has its
first byte in bits 7..0 (log 12). -/
def tableBytes (nbits w : Nat) : List Byte :=
  let v := w % 2 ^ nbits
  if nbits = 16 ∧ v / 256 = 0xCB then [Config.escapeByte, BitVec.ofNat 8 v, 0]
  else [BitVec.ofNat 8 v, BitVec.ofNat 8 (v / 256), BitVec.ofNat 8 (v / 65536)]

/-- The instruction that `decode` reads from a word of opcode_table.json. -/
def decodeTableWord (nbits w : Nat) : Option Instr :=
  match decode (tableBytes nbits w) with
  | .ok (i, _) => some i
  | .error _ => none

end Sys2Proof
end

