-- ==== Sys2Proof/Machine/Operands.lean ====
section
/-! DEFINITION. The operand forms: the 8-bit registers, the register pairs and the stack pointer as the accessors reach
them (42_state_operations.md R174 to R178), and the operand bytes of a decode record (40_decode_loop.md R113). No step
uses an accessor (10_state.md R23). -/

namespace Sys2Proof.Machine

/-! ## Registers -/

/-- The names of the eight 8-bit registers (10_state.md R21; decision D7, PRESUMED, log 8). -/
inductive Reg8
  | a | f | b | c | d | e | h | l
  deriving DecidableEq, Repr

/-- The four register pairs (10_state.md R22; decision D7, PRESUMED, log 8). -/
inductive RegPair
  | af | bc | de | hl
  deriving DecidableEq, Repr

/-- The half of a pair in bits 15..8: the first-named register (10_state.md R22). -/
def RegPair.high : RegPair → Reg8
  | .af => .a
  | .bc => .b
  | .de => .d
  | .hl => .h

/-- The half of a pair in bits 7..0: the second-named register (10_state.md R22). -/
def RegPair.low : RegPair → Reg8
  | .af => .f
  | .bc => .c
  | .de => .e
  | .hl => .l

/-- The bits of F that can be nonzero: the top four (10_state.md R24). -/
def flagMask : Byte := 0xF0

/-- `read8(r)` on the register file; F reads with a zero low nibble (42_state_operations.md R174). -/
def Regs.read8 (x : Regs) : Reg8 → Byte
  | .a => x.a
  | .f => x.f &&& flagMask
  | .b => x.b
  | .c => x.c
  | .d => x.d
  | .e => x.e
  | .h => x.h
  | .l => x.l

/-- `write8(r, v)` on the register file; F is masked at the write (42_state_operations.md R175; decision D9, log 7). -/
def Regs.write8 (x : Regs) (r : Reg8) (v : Byte) : Regs :=
  match r with
  | .a => { x with a := v }
  | .f => { x with f := v &&& flagMask }
  | .b => { x with b := v }
  | .c => { x with c := v }
  | .d => { x with d := v }
  | .e => { x with e := v }
  | .h => { x with h := v }
  | .l => { x with l := v }

/-- `read8(r)` (42_state_operations.md R174). -/
def State.read8 (s : State) (r : Reg8) : Byte :=
  s.regs.read8 r

/-- `write8(r, v)` (42_state_operations.md R175). -/
def State.write8 (s : State) (r : Reg8) (v : Byte) : State :=
  { s with regs := s.regs.write8 r v }

/-- `read16(p)`: the halves concatenated (42_state_operations.md R176). -/
def State.read16 (s : State) (p : RegPair) : Word :=
  s.read8 p.high ++ s.read8 p.low

/-- `write16(p, v)`: both halves, as one operation (42_state_operations.md R177). -/
def State.write16 (s : State) (p : RegPair) (v : Word) : State :=
  (s.write8 p.high (v.extractLsb' 8 8)).write8 p.low (v.extractLsb' 0 8)

/-- `read_sp()` (42_state_operations.md R178). -/
def State.readSp (s : State) : Word := s.sp

/-- `write_sp(v)` (42_state_operations.md R178). -/
def State.writeSp (s : State) (v : Word) : State := { s with sp := v }

/-! ## Operand bytes of a decode record -/

/-- The operands of an entry with their bytes: those with a static length, in list order, each with the next bytes of
the inline list (30_encoding.md R73, 40_decode_loop.md R113; decision D13, log 7). -/
def splitOperands : List OperandDescriptor → List (Option Byte) → List (String × List (Option Byte))
  | [], _ => []
  | o :: os, bs =>
    match o.bytes with
    | none => splitOperands os bs
    | some n => (o.name, bs.take n) :: splitOperands os (bs.drop n)

end Sys2Proof.Machine
end

