-- ==== Sys2Proof/Machine/Record.lean ====
section
/-! DEFINITION. The decode record, the output of a step whose lookup succeeds (40_decode_loop.md R112, R113). It is no
part of the state: it is a function of the instruction and the state before the step (log 5). -/

namespace Sys2Proof.Machine

/-- `DecodeRecord` (40_decode_loop.md R112). -/
structure DecodeRecord where
  address : Word
  prefixed : Bool
  opcode : Byte
  descriptor : Descriptor
  mnemonic : String
  operands : List (String × List (Option Byte))
  length : Nat
  deriving DecidableEq, Repr

/-- The record of an opcode that resolved to `d` at address `a0`, with the inline operand bytes it was decoded with
(40_decode_loop.md R112, R113). -/
def makeRecord (a0 : Word) (prefixed : Bool) (op : Byte) (d : Descriptor) (inline : List (Option Byte)) : DecodeRecord where
  address := a0
  prefixed := prefixed
  opcode := op
  descriptor := d
  mnemonic := d.mnemonic
  operands := splitOperands d.operands inline
  length := opcodeLength prefixed + d.inlineLength

/-- `n` operand bytes at consecutive addresses: each is the memory byte, or `none` past 0xFFFF, where memory is not
read (40_decode_loop.md R113). -/
def State.operandBytes (s : State) : Nat → Nat → List (Option Byte)
  | _, 0 => []
  | a, n + 1 => s.memRead a :: s.operandBytes (a + 1) n

/-- The record of the escape row: that of the CB row it completes to (40_decode_loop.md R104). -/
def emitEscapeWith (cat : Catalog) (s : State) : Option DecodeRecord :=
  match s.memRead (s.pc.toNat + 1) with
  | none => none
  | some op =>
    match cat.lookup true op with
    | none => none
    | some d => some (makeRecord s.pc true op d (s.operandBytes (s.pc.toNat + 2) d.inlineLength))

/-- What an instruction emits: a record when its lookup succeeded, none on UnknownOpcode (40_decode_loop.md R112;
decision D14, log 7). A REF_CAT row carries REF_CAT's entry. -/
def emit (i : Instr) (s : State) : Option DecodeRecord :=
  match i with
  | .unprefixedMapped op d inline => some (makeRecord s.pc false op d inline)
  | .unprefixedUnknown _ => none
  | .escape => emitEscapeWith refCat s
  | .cbMapped op d inline => some (makeRecord s.pc true op d inline)
  | .cbUnknown _ => none
  | row => (refCat.lookup row.prefixed row.opcode).map fun d => makeRecord s.pc row.prefixed row.opcode d row.inline

end Sys2Proof.Machine
end

