-- ==== Sys2Proof/Machine/Step.lean ====
section
/-! DEFINITION. The step of the decode loop (40_decode_loop.md R102): fetch, decode, execute, and its output.

`stepWith cat` is the step for any catalog, as 00_scope.md R12 asks. `step` is the step under REF_CAT, read through
the table's own rows (log 1). -/

namespace Sys2Proof.Machine

/-- What the loop does with the result of decoding. There is always a byte to fetch, so the error is never met in a
state whose pc is an address (40_decode_loop.md R106). -/
def runDecoded (s : State) : Except DecodeError (Instr × List Byte) → Result
  | .ok (i, _) => exec i s
  | .error .noByte => .fault (.fetchOutsideMemory s.pc.toNat)

/-- One step under a catalog: enabled in Running only (40_decode_loop.md R101, R102). -/
def stepWith (cat : Catalog) (s : State) : Result :=
  match s.run with
  | .halted reason => .fault (.runEnded reason)
  | .running => runDecoded s (decodeWith cat s.fetchWindow)

/-- One step under REF_CAT. -/
def step (s : State) : Host.Outcome State Fault Refusal :=
  match s.run with
  | .halted reason => .fault (.runEnded reason)
  | .running => runDecoded s (decode s.fetchWindow)

/-! ## The output of a step -/

/-- What the loop emits for the result of decoding. -/
def emitDecoded (s : State) : Except DecodeError (Instr × List Byte) → Option DecodeRecord
  | .ok (i, _) => emit i s
  | .error .noByte => none

/-- The decode record that `stepWith cat` emits in a state, if any (40_decode_loop.md R112). -/
def recordWith (cat : Catalog) (s : State) : Option DecodeRecord :=
  match s.run with
  | .halted _ => none
  | .running => emitDecoded s (decodeWith cat s.fetchWindow)

/-- The decode record that `step` emits in a state, if any. -/
def stepRecord (s : State) : Option DecodeRecord :=
  match s.run with
  | .halted _ => none
  | .running => emitDecoded s (decode s.fetchWindow)

/-! ## Runs -/

/-- `n` steps under a catalog, stopping where the machine has no step. -/
def runWith (cat : Catalog) : Nat → State → Result
  | 0, s => .next s
  | n + 1, s =>
    match stepWith cat s with
    | .next t => runWith cat n t
    | .fault f => .fault f
    | .refused r => .refused r

/-- The trace of at most `n` steps: the decode records in order (60_exceptions.md R216). -/
def traceWith (cat : Catalog) : Nat → State → List DecodeRecord
  | 0, _ => []
  | n + 1, s =>
    match stepWith cat s with
    | .next t => (recordWith cat s).toList ++ traceWith cat n t
    | .fault _ => []
    | .refused _ => []

/-! ## Placing one instruction for the host's questions -/

/-- `s` with the table word `w` stored at the pc, zeros after it, and the loop enabled, so that the next step fetches
and runs it. A byte that would lie past 0xFFFF is not stored (log 12). -/
def State.withFetchWord (s : State) (nbits w : Nat) : State :=
  { s with
    mem := s.mem.writeBytes s.pc.toNat ((tableBytes nbits w).take (Config.memSize - s.pc.toNat))
    run := .running }

end Sys2Proof.Machine
end

