-- ==== Sys2Proof/Machine/Flags.lean ====
section
/-! DEFINITION. The flags: the top nibble of F and the accessors over it (10_state.md R24 to R26,
42_state_operations.md R179 to R181). No instruction computes a flag: only the host's accessors change one (R26). -/

namespace Sys2Proof.Machine

/-- The four flags (10_state.md R24). -/
inductive Flag
  | z | n | h | c
  deriving DecidableEq, Repr

/-- The bit of F that holds a flag (10_state.md R25; decision D8, PRESUMED, log 8). -/
def Flag.bit : Flag → Nat
  | .z => 7
  | .n => 6
  | .h => 5
  | .c => 4

/-- F with only the flag's bit set. -/
def Flag.mask (f : Flag) : Byte := BitVec.ofNat 8 (2 ^ f.bit)

/-- `test(f)` (42_state_operations.md R179). -/
def State.testFlag (s : State) (f : Flag) : Bool :=
  (s.read8 .f).getLsbD f.bit

/-- `set(f)` (42_state_operations.md R180). -/
def State.setFlag (s : State) (f : Flag) : State :=
  s.write8 .f (s.read8 .f ||| f.mask)

/-- `clear(f)` (42_state_operations.md R181). -/
def State.clearFlag (s : State) (f : Flag) : State :=
  s.write8 .f (s.read8 .f &&& ~~~f.mask)

end Sys2Proof.Machine
end

