-- ==== Sys2Proof/Machine/Boot.lean ====
section
/-! DEFINITION. The host's side of the block: the accessors and the image load as host operations
(42_state_operations.md), the loading collaborator's checks (41_catalog.md R149 to R152), and the boot order
(70_reset_and_hazards.md R233). Reading storage and parsing text stay outside (00_scope.md R6, log 9). -/

namespace Sys2Proof.Machine

/-- The errors that end a startup, before any step (60_exceptions.md R200). -/
inductive StartupError
  /-- The backing source cannot be read (41_catalog.md R151). -/
  | catalogUnavailable
  /-- A field is absent or mistyped, or a key is no opcode key: the offending key and field (41_catalog.md R150). -/
  | malformedCatalog (key field : String)
  /-- The image does not fit above 0x0100 (42_state_operations.md R172). -/
  | romTooLarge
  deriving DecidableEq, Repr

/-- The numeric code of a startup error (60_exceptions.md R207; decision D15, log 7). -/
def StartupError.code : StartupError → Nat
  | .catalogUnavailable => 1
  | .malformedCatalog _ _ => 2
  | .romTooLarge => 3

/-! ## Construction and program load -/

/-- `new()` (42_state_operations.md R170). -/
def State.new : State := State.reset

/-- `load_program(img)`: all or nothing (42_state_operations.md R171, R172). -/
def State.loadProgram (s : State) (img : List Byte) : Except StartupError State :=
  if img.length + Config.loadBase > Config.memSize then .error .romTooLarge
  else .ok { s with mem := s.mem.writeBytes Config.loadBase img }

/-! ## Observation (42_state_operations.md R183) -/

/-- The host's read of the pc. -/
def State.readPc (s : State) : Word := s.pc
/-- The host's read of the run state. -/
def State.readRun (s : State) : RunState := s.run
/-- The host's read of one memory byte, at an address of the address space. -/
def State.readMem (s : State) (a : Word) : Byte := s.mem.read a.toNat

/-! ## The host's operations on the state -/

/-- What the host may do to the state before the first step (60_exceptions.md R218). -/
inductive HostOp
  | loadProgram (img : List Byte)
  | write8 (r : Reg8) (v : Byte)
  | write16 (p : RegPair) (v : Word)
  | writeSp (v : Word)
  | setFlag (f : Flag)
  | clearFlag (f : Flag)
  deriving DecidableEq, Repr

/-- Whether a host operation is a register or flag accessor: those may also be used after the halt, the image load may
not (42_state_operations.md R173, 60_exceptions.md R218). -/
def HostOp.isAccessor : HostOp → Bool
  | .loadProgram _ => false
  | .write8 _ _ | .write16 _ _ | .writeSp _ | .setFlag _ | .clearFlag _ => true

/-- The effect of a host operation (42_state_operations.md R171 to R181). -/
def HostOp.apply (op : HostOp) (s : State) : Except StartupError State :=
  match op with
  | .loadProgram img => s.loadProgram img
  | .write8 r v => .ok (s.write8 r v)
  | .write16 p v => .ok (s.write16 p v)
  | .writeSp v => .ok (s.writeSp v)
  | .setFlag f => .ok (s.setFlag f)
  | .clearFlag f => .ok (s.clearFlag f)

/-- Host operations in order, stopping at the first error: any number of them, `load_program` among them
(42_state_operations.md R173). -/
def setup : List HostOp → State → Except StartupError State
  | [], s => .ok s
  | op :: ops, s =>
    match op.apply s with
    | .ok t => setup ops t
    | .error e => .error e

/-! ## The catalog source after reading: the collaborator's checks -/

/-- A field of a serialized record: absent, of another type than 41_catalog.md R141 to R143 say, or present. -/
inductive FieldValue (α : Type)
  | absent
  | mistyped
  | present (a : α)
  deriving DecidableEq, Repr

/-- A serialized operand record (41_catalog.md R142); its `bytes` is optional. -/
structure RawOperand where
  name : FieldValue String
  bytes : FieldValue Int
  immediate : FieldValue Bool
  deriving DecidableEq, Repr

/-- The serialized flag effects (41_catalog.md R143). -/
structure RawFlags where
  z : FieldValue String
  n : FieldValue String
  h : FieldValue String
  c : FieldValue String
  deriving DecidableEq, Repr

/-- A serialized instruction record under its opcode key (41_catalog.md R141, R150). -/
structure RawEntry where
  key : String
  mnemonic : FieldValue String
  bytes : FieldValue Int
  cycles : FieldValue (List Int)
  operands : FieldValue (List RawOperand)
  immediate : FieldValue Bool
  flags : FieldValue RawFlags
  deriving DecidableEq, Repr

/-- The two top-level collections (41_catalog.md R150). -/
structure RawTable where
  unprefixed : FieldValue (List RawEntry)
  cbprefixed : FieldValue (List RawEntry)
  deriving DecidableEq, Repr

/-- The backing source: unreadable, or read as a table. -/
inductive Source
  | unreadable
  | table (t : RawTable)
  deriving DecidableEq, Repr

/-- A required field: absent or mistyped is MalformedCatalog, naming the key and the field (41_catalog.md R150). -/
def FieldValue.required {α : Type} (f : FieldValue α) (key name : String) : Except StartupError α :=
  match f with
  | .present a => .ok a
  | .absent => .error (.malformedCatalog key name)
  | .mistyped => .error (.malformedCatalog key name)

/-- An integer as a natural number of at least `low`; any other is mistyped (41_catalog.md R141, R150; decision D12, log 7). -/
def natAtLeast (low : Nat) (key name : String) (v : Int) : Except StartupError Nat :=
  if (low : Int) ≤ v then .ok v.toNat else .error (.malformedCatalog key name)

/-- A flag-effect symbol: "1" set, "0" cleared, "-" unaffected, any other the data-dependent marker (41_catalog.md R143;
decision D11, log 7). -/
def effectOfSymbol (symbol : String) : Effect :=
  if symbol = "1" then .set
  else if symbol = "0" then .cleared
  else if symbol = "-" then .unaffected
  else .dependent

/-- The flag effects of a record (41_catalog.md R143). -/
def loadFlags (key : String) (raw : RawFlags) : Except StartupError FlagsEffect := do
  let z ← raw.z.required key "flags.Z"
  let n ← raw.n.required key "flags.N"
  let h ← raw.h.required key "flags.H"
  let c ← raw.c.required key "flags.C"
  return { z := effectOfSymbol z, n := effectOfSymbol n, h := effectOfSymbol h, c := effectOfSymbol c }

/-- The cycle counts of a record: a list of length 1 or 2 (41_catalog.md R144, R150). -/
def loadCycles (key : String) : List Int → Except StartupError Cycles
  | [a] => do
    let a ← natAtLeast 0 key "cycles" a
    return .one a
  | [a, b] => do
    let a ← natAtLeast 0 key "cycles" a
    let b ← natAtLeast 0 key "cycles" b
    return .two a b
  | [] => .error (.malformedCatalog key "cycles")
  | _ :: _ :: _ :: _ => .error (.malformedCatalog key "cycles")

/-- An operand record; an absent `bytes` means that the operand is not encoded inline (41_catalog.md R142). -/
def loadOperand (key : String) (raw : RawOperand) : Except StartupError OperandDescriptor := do
  let name ← raw.name.required key "operands.name"
  let immediate ← raw.immediate.required key "operands.immediate"
  match raw.bytes with
  | .absent => return { name, bytes := none, immediate }
  | .mistyped => .error (.malformedCatalog key "operands.bytes")
  | .present v => do
    let n ← natAtLeast 0 key "operands.bytes" v
    return { name, bytes := some n, immediate }

/-- The operand records in order. -/
def loadOperands (key : String) : List RawOperand → Except StartupError (List OperandDescriptor)
  | [] => .ok []
  | o :: os => do
    let d ← loadOperand key o
    let ds ← loadOperands key os
    return d :: ds

/-- An instruction record: its key read in the key format, its fields checked (41_catalog.md R150). -/
def loadEntry (fmt : KeyFormat) (raw : RawEntry) : Except StartupError (Byte × Descriptor) :=
  match fmt.parse raw.key with
  | none => .error (.malformedCatalog raw.key "key")
  | some op => do
    let mnemonic ← raw.mnemonic.required raw.key "mnemonic"
    let bytes ← raw.bytes.required raw.key "bytes"
    let bytes ← natAtLeast 1 raw.key "bytes" bytes
    let cycles ← raw.cycles.required raw.key "cycles"
    let cycles ← loadCycles raw.key cycles
    let operands ← raw.operands.required raw.key "operands"
    let operands ← loadOperands raw.key operands
    let immediate ← raw.immediate.required raw.key "immediate"
    let flags ← raw.flags.required raw.key "flags"
    let flags ← loadFlags raw.key flags
    return (op, { mnemonic, bytes, cycles, operands, immediate, flags })

/-- The records of one space, all of them or an error: never a partial catalog (41_catalog.md R152). -/
def loadSpace (fmt : KeyFormat) : List RawEntry → Except StartupError (List (Byte × Descriptor))
  | [] => .ok []
  | e :: es => do
    let d ← loadEntry fmt e
    let ds ← loadSpace fmt es
    return d :: ds

/-- One of the two mappings. A serialized mapping holds a key once; the first record of a repeated key counts
(DESIGN CHOICE, log 9). -/
def spaceOf (entries : List (Byte × Descriptor)) (op : Byte) : Option Descriptor :=
  (entries.find? fun e => e.1 == op).map fun e => e.2

/-- `load(source)` (41_catalog.md R150 to R152), under a key format (R149). -/
def loadCatalog (fmt : KeyFormat) (source : Source) : Except StartupError Catalog :=
  match source with
  | .unreadable => .error .catalogUnavailable
  | .table t => do
    let u ← t.unprefixed.required "" "unprefixed"
    let u ← loadSpace fmt u
    let c ← t.cbprefixed.required "" "cbprefixed"
    let c ← loadSpace fmt c
    return { unprefixed := spaceOf u, cbprefixed := spaceOf c }

/-! ## The key format -/

/-- The key-format contract: the loader reads back each key that the format renders (41_catalog.md R149). -/
def keyFormatAgrees (fmt : KeyFormat) : Prop :=
  ∀ b : Byte, fmt.parse (fmt.render b) = some b

/-- An uppercase hexadecimal digit. -/
def hexDigit (n : Nat) : Char :=
  if n < 10 then Char.ofNat (48 + n) else Char.ofNat (55 + n)

/-- The value of an uppercase hexadecimal digit. -/
def hexValue (c : Char) : Option Nat :=
  if 48 ≤ c.toNat ∧ c.toNat ≤ 57 then some (c.toNat - 48)
  else if 65 ≤ c.toNat ∧ c.toNat ≤ 70 then some (c.toNat - 55)
  else none

/-- The two hexadecimal digits of a byte. -/
def hexByte (b : Byte) : List Char :=
  [hexDigit (b.toNat / 16), hexDigit (b.toNat % 16)]

/-- The reference key format: "0x" and two uppercase hexadecimal digits (41_catalog.md R149; decision D10, PRESUMED, log 9). -/
def referenceKeyFormat : KeyFormat where
  render b := String.ofList ('0' :: 'x' :: hexByte b)
  parse key :=
    match key.toList with
    | ['0', 'x', hi, lo] =>
      match hexValue hi, hexValue lo with
      | some h, some l => some (BitVec.ofNat 8 (16 * h + l))
      | _, _ => none
    | _ => none

/-! ## Boot -/

/-- The boot sequence: the catalog first, then `new()`, then the image, then the loop in Running (70_reset_and_hazards.md
R233, 60_exceptions.md R208; decision D19, log 7). It answers the catalog to run with and the state before the first step. -/
def boot (fmt : KeyFormat) (source : Source) (img : List Byte) : Except StartupError (Catalog × State) :=
  match loadCatalog fmt source with
  | .error e => .error e
  | .ok cat =>
    match State.new.loadProgram img with
    | .error e => .error e
    | .ok s => .ok (cat, s)

end Sys2Proof.Machine
end

