-- ==== Sys2Proof/Machine/Listing.lean ====
section
/-! DEFINITION. The names of the table: each instruction's row mnemonic and operand names (opcode_table.json,
41_catalog.md R154, R155), and the listing line of a decode record (30_encoding.md R82). Reading aids: no step uses
them. -/

namespace Sys2Proof

/-- The operand's name in the table. -/
def Operand8.name : Operand8 → String
  | .b => "B"
  | .c => "C"
  | .d => "D"
  | .e => "E"
  | .h => "H"
  | .l => "L"
  | .hlMem => "[HL]"
  | .a => "A"

/-- The operand's name in the table. -/
def Operand16.name : Operand16 → String
  | .bc => "BC"
  | .de => "DE"
  | .hl => "HL"
  | .sp => "SP"

/-- The operand's name in the table. -/
def StackOperand.name : StackOperand → String
  | .bc => "BC"
  | .de => "DE"
  | .hl => "HL"
  | .af => "AF"

/-- The operand's name in the table. -/
def Indirect.name : Indirect → String
  | .bcMem => "[BC]"
  | .deMem => "[DE]"
  | .hlInc => "[HL+]"
  | .hlDec => "[HL-]"

/-- The condition's name in the table. -/
def Cond.name : Cond → String
  | .nz => "NZ"
  | .z => "Z"
  | .nc => "NC"
  | .c => "C"

/-- A bit number's name in the table. -/
def bitName (n : BitVec 3) : String := String.ofList [Char.ofNat (48 + n.toNat)]

/-- A restart target's name in the table: `$` and the two hexadecimal digits of `8 * target`. -/
def targetName (target : BitVec 3) : String :=
  String.ofList ('$' :: Machine.hexByte (field53 target))

/-- The operand names of an instruction's table row, in order. -/
def Instr.operandNames : Instr → List String
  | .unprefixedMapped _ d _ | .cbMapped _ d _ => d.operands.map fun o => o.name
  | .unprefixedUnknown _ | .escape | .cbUnknown _ => []
  | .ldR16N16 r _ _ => [r.name, "n16"]
  | .ldMemA p => [p.name, "A"]
  | .ldAMem p => ["A", p.name]
  | .ldA16Sp _ _ => ["[a16]", "SP"]
  | .ldR8N8 r _ => [r.name, "n8"]
  | .ldR8R8 dst src => [dst.name, src.name]
  | .ldA16A _ _ => ["[a16]", "A"]
  | .ldAA16 _ _ => ["A", "[a16]"]
  | .ldHlSpE8 _ => ["HL", "SP+e8"]
  | .ldSpHl => ["SP", "HL"]
  | .ldhA8A _ => ["[a8]", "A"]
  | .ldhAA8 _ => ["A", "[a8]"]
  | .ldhCA => ["[C]", "A"]
  | .ldhAC => ["A", "[C]"]
  | .pushPair r | .popPair r => [r.name]
  | .incR16 r | .decR16 r => [r.name]
  | .incR8 r | .decR8 r => [r.name]
  | .addHlR16 r => ["HL", r.name]
  | .addSpE8 _ => ["SP", "e8"]
  | .addR8 r | .adcR8 r | .subR8 r | .sbcR8 r | .andR8 r | .xorR8 r | .orR8 r | .cpR8 r => ["A", r.name]
  | .addN8 _ | .adcN8 _ | .subN8 _ | .sbcN8 _ | .andN8 _ | .xorN8 _ | .orN8 _ | .cpN8 _ => ["A", "n8"]
  | .rlca | .rrca | .rla | .rra | .daa | .cpl | .scf | .ccf => []
  | .jrE8 _ => ["e8"]
  | .jrCondE8 cond _ => [cond.name, "e8"]
  | .jpA16 _ _ | .callA16 _ _ => ["a16"]
  | .jpCondA16 cond _ _ | .callCondA16 cond _ _ => [cond.name, "a16"]
  | .jpHl => ["HL"]
  | .ret | .reti => []
  | .retCond cond => [cond.name]
  | .rst target => [targetName target]
  | .stopN8 _ => ["n8"]
  | .nop | .halt | .di | .ei | .illegalD3 | .illegalDB | .illegalDD | .illegalE3 | .illegalE4 | .illegalEB
  | .illegalEC | .illegalED | .illegalF4 | .illegalFC | .illegalFD => []
  | .rlc r | .rrc r | .rl r | .rr r | .sla r | .sra r | .swap r | .srl r => [r.name]
  | .bit n r | .res n r | .setBit n r => [bitName n, r.name]

/-- The mnemonic of an instruction's row in opcode_table.json. -/
def Instr.tableMnemonic : Instr → String
  | .unprefixedMapped _ _ _ => "U*"
  | .unprefixedUnknown _ => "U?"
  | .escape => "PREFIX"
  | .cbMapped _ _ _ => "CB*"
  | .cbUnknown _ => "CB?"
  | .ldR16N16 _ _ _ | .ldMemA _ | .ldAMem _ | .ldA16Sp _ _ | .ldR8N8 _ _ | .ldR8R8 _ _ | .ldA16A _ _ | .ldAA16 _ _
  | .ldHlSpE8 _ | .ldSpHl => "LD"
  | .ldhA8A _ | .ldhAA8 _ | .ldhCA | .ldhAC => "LDH"
  | .pushPair _ => "PUSH"
  | .popPair _ => "POP"
  | .incR16 _ | .incR8 _ => "INC"
  | .decR16 _ | .decR8 _ => "DEC"
  | .addHlR16 _ | .addSpE8 _ | .addR8 _ | .addN8 _ => "ADD"
  | .adcR8 _ | .adcN8 _ => "ADC"
  | .subR8 _ | .subN8 _ => "SUB"
  | .sbcR8 _ | .sbcN8 _ => "SBC"
  | .andR8 _ | .andN8 _ => "AND"
  | .xorR8 _ | .xorN8 _ => "XOR"
  | .orR8 _ | .orN8 _ => "OR"
  | .cpR8 _ | .cpN8 _ => "CP"
  | .rlca => "RLCA"
  | .rrca => "RRCA"
  | .rla => "RLA"
  | .rra => "RRA"
  | .daa => "DAA"
  | .cpl => "CPL"
  | .scf => "SCF"
  | .ccf => "CCF"
  | .jrE8 _ | .jrCondE8 _ _ => "JR"
  | .jpA16 _ _ | .jpCondA16 _ _ _ | .jpHl => "JP"
  | .callA16 _ _ | .callCondA16 _ _ _ => "CALL"
  | .ret | .retCond _ => "RET"
  | .reti => "RETI"
  | .rst _ => "RST"
  | .nop => "NOP"
  | .stopN8 _ => "STOP"
  | .halt => "HALT"
  | .di => "DI"
  | .ei => "EI"
  | .illegalD3 => "ILLEGAL_D3"
  | .illegalDB => "ILLEGAL_DB"
  | .illegalDD => "ILLEGAL_DD"
  | .illegalE3 => "ILLEGAL_E3"
  | .illegalE4 => "ILLEGAL_E4"
  | .illegalEB => "ILLEGAL_EB"
  | .illegalEC => "ILLEGAL_EC"
  | .illegalED => "ILLEGAL_ED"
  | .illegalF4 => "ILLEGAL_F4"
  | .illegalFC => "ILLEGAL_FC"
  | .illegalFD => "ILLEGAL_FD"
  | .rlc _ => "RLC"
  | .rrc _ => "RRC"
  | .rl _ => "RL"
  | .rr _ => "RR"
  | .sla _ => "SLA"
  | .sra _ => "SRA"
  | .swap _ => "SWAP"
  | .srl _ => "SRL"
  | .bit _ _ => "BIT"
  | .res _ _ => "RES"
  | .setBit _ _ => "SET"

namespace Machine

/-- The operand part of a listing line: a space and the names joined by commas, when there are operands. -/
def listOperands (names : List String) : String :=
  if names = [] then "" else " " ++ String.intercalate "," names

/-- The listing line of a decode record: `addr: b0 b1 ...  MNEMONIC op1,op2`, the address and the bytes in hexadecimal
(30_encoding.md R82; decision D20, log 7). A byte past 0xFFFF is left out. -/
def DecodeRecord.listing (r : DecodeRecord) : String :=
  let opcodeBytes := if r.prefixed then [Config.escapeByte, r.opcode] else [r.opcode]
  let operandBytes := (r.operands.map fun o => o.2).flatten.reduceOption
  let bytes := (opcodeBytes ++ operandBytes).map fun b => String.ofList (hexByte b)
  String.ofList (hexByte (r.address.extractLsb' 8 8) ++ hexByte (r.address.extractLsb' 0 8)) ++ ": " ++
    String.intercalate " " bytes ++ "  " ++ r.mnemonic ++ listOperands (r.descriptor.operands.map fun o => o.name)

end Machine
end Sys2Proof
end

