-- ==== Sys2Proof/Safety.lean ====
section
/-! DEFINITION. The terms claims are made in: the invariant of the state, what a run can reach, and what a safe end
of a run is; what a well-formed catalog source is and what its records say. -/

namespace Sys2Proof.Machine

/-- The invariant of the state.
* Memory is in its canonical form.
* The low nibble of F is zero (10_state.md R24, 42_state_operations.md R182).
* While the run goes on, the pc is at most 0xFFFE (10_state.md R30). -/
structure State.Inv (s : State) : Prop where
  memory : s.mem.wf
  flagNibble : s.regs.f &&& 0x0F#8 = 0#8
  pcBelowTop : s.run = .running → s.pc.toNat ≤ 0xFFFE

/-- The states a machine with catalog `cat` can be in (60_exceptions.md R218, 42_state_operations.md R173): after
`new()` and the host's setup; after each step; and after the halt, when the host may use the accessors. -/
inductive Reachable (cat : Catalog) : State → Prop
  | start {ops : List HostOp} {s : State} : setup ops State.new = .ok s → Reachable cat s
  | step {s t : State} : Reachable cat s → stepWith cat s = .next t → Reachable cat t
  | access {s t : State} {reason : HaltReason} {op : HostOp} :
      Reachable cat s → s.run = .halted reason → op.isAccessor = true → op.apply s = .ok t → Reachable cat t

/-- A safe end of a run: one of the block's two halts (40_decode_loop.md R114). -/
def State.ended (s : State) : Prop :=
  s.run = .halted .pcOverflow ∨
    ∃ prefixed op address, s.run = .halted (.unknownOpcode prefixed op address)

/-- An unsafe answer: the machine stops without having ended its run. -/
def Result.unsafeStop : Result → Bool
  | .next _ => false
  | .fault (.runEnded _) => false
  | .fault (.fetchOutsideMemory _) => true
  | .refused _ => true

/-! ## What a catalog source says -/

/-- The cycle counts as the list that 41_catalog.md R141 writes. -/
def cycleCounts : Cycles → List Nat
  | .one a => [a]
  | .two a b => [a, b]

/-- What a flag-effect symbol stands for (41_catalog.md R143; the spec's decision D11, log 7). -/
def SymbolMeans (symbol : String) : Effect → Prop
  | .set => symbol = "1"
  | .cleared => symbol = "0"
  | .unaffected => symbol = "-"
  | .dependent => symbol ≠ "1" ∧ symbol ≠ "0" ∧ symbol ≠ "-"

/-- A serialized flag effect stands for an effect (41_catalog.md R143). -/
def EffectSaid (f : FieldValue String) (effect : Effect) : Prop :=
  ∃ symbol, f = .present symbol ∧ SymbolMeans symbol effect

/-- The serialized flag effects say `d` (41_catalog.md R143). -/
structure FlagsSay (raw : RawFlags) (d : FlagsEffect) : Prop where
  z : EffectSaid raw.z d.z
  n : EffectSaid raw.n d.n
  h : EffectSaid raw.h d.h
  c : EffectSaid raw.c d.c

/-- A serialized operand record says `d`: its `bytes` is there exactly when the operand has a static length
(41_catalog.md R142). -/
structure OperandSays (raw : RawOperand) (d : OperandDescriptor) : Prop where
  name : raw.name = .present d.name
  bytes : raw.bytes = match d.bytes with
    | none => .absent
    | some n => .present (n : Int)
  immediate : raw.immediate = .present d.immediate

/-- A serialized record says that the opcode `op` is the instruction `d`: every field of the descriptor is that of the
record, the operands in order (41_catalog.md R141 to R143, R150). -/
structure RecordSays (fmt : KeyFormat) (e : RawEntry) (op : Byte) (d : Descriptor) : Prop where
  key : fmt.parse e.key = some op
  mnemonic : e.mnemonic = .present d.mnemonic
  bytes : e.bytes = .present (d.bytes : Int)
  bytesPos : 1 ≤ d.bytes
  cycles : e.cycles = .present ((cycleCounts d.cycles).map fun n => (n : Int))
  operands : ∃ os, e.operands = .present os ∧ List.Forall₂ OperandSays os d.operands
  immediate : e.immediate = .present d.immediate
  flags : ∃ raw, e.flags = .present raw ∧ FlagsSay raw d.flags

/-- The field of that name of an operand record is absent, mistyped or negative (41_catalog.md R142, R150). -/
inductive MalformedOperand (raw : RawOperand) : String → Prop
  | name : (∀ x, raw.name ≠ .present x) → MalformedOperand raw "operands.name"
  | immediate : (∀ x, raw.immediate ≠ .present x) → MalformedOperand raw "operands.immediate"
  | mistyped : raw.bytes = .mistyped → MalformedOperand raw "operands.bytes"
  | negative {n : Int} : raw.bytes = .present n → n < 0 → MalformedOperand raw "operands.bytes"

/-- The field of that name of the flag effects is absent or mistyped (41_catalog.md R143, R150). -/
inductive MalformedFlags (raw : RawFlags) : String → Prop
  | z : (∀ x, raw.z ≠ .present x) → MalformedFlags raw "flags.Z"
  | n : (∀ x, raw.n ≠ .present x) → MalformedFlags raw "flags.N"
  | h : (∀ x, raw.h ≠ .present x) → MalformedFlags raw "flags.H"
  | c : (∀ x, raw.c ≠ .present x) → MalformedFlags raw "flags.C"

/-- Cycle counts that are no list of one or two natural numbers (41_catalog.md R141, R150; the spec's decision D12,
log 7; negative counts: log 9). -/
def malformedCycles (cs : List Int) : Prop :=
  (cs.length ≠ 1 ∧ cs.length ≠ 2) ∨ ∃ n ∈ cs, n < 0

/-- The field of that name of a record is absent, mistyped or out of range, or its key is no opcode key
(41_catalog.md R150). How a field is named is the model's choice (log 9). -/
inductive MalformedField (fmt : KeyFormat) (e : RawEntry) : String → Prop
  | key : fmt.parse e.key = none → MalformedField fmt e "key"
  | mnemonic : (∀ x, e.mnemonic ≠ .present x) → MalformedField fmt e "mnemonic"
  | bytes : (∀ n, e.bytes = .present n → n < 1) → MalformedField fmt e "bytes"
  | cycles : (∀ cs, e.cycles = .present cs → malformedCycles cs) → MalformedField fmt e "cycles"
  | operands : (∀ x, e.operands ≠ .present x) → MalformedField fmt e "operands"
  | operand {os : List RawOperand} {o : RawOperand} {field : String} :
      e.operands = .present os → o ∈ os → MalformedOperand o field → MalformedField fmt e field
  | immediate : (∀ x, e.immediate ≠ .present x) → MalformedField fmt e "immediate"
  | flags : (∀ x, e.flags ≠ .present x) → MalformedField fmt e "flags"
  | flag {raw : RawFlags} {field : String} :
      e.flags = .present raw → MalformedFlags raw field → MalformedField fmt e field

/-- A table is malformed at a key and a field: a collection is missing (then the key is empty: log 9), or that field of
a record with that key is malformed (41_catalog.md R150). -/
inductive MalformedTable (fmt : KeyFormat) (table : RawTable) : String → String → Prop
  | unprefixed : (∀ es, table.unprefixed ≠ .present es) → MalformedTable fmt table "" "unprefixed"
  | cbprefixed : (∀ es, table.cbprefixed ≠ .present es) → MalformedTable fmt table "" "cbprefixed"
  | record {es : List RawEntry} {e : RawEntry} {field : String} :
      table.unprefixed = .present es ∨ table.cbprefixed = .present es → e ∈ es → MalformedField fmt e field →
      MalformedTable fmt table e.key field

end Sys2Proof.Machine
end

