-- ==== Sys2Proof/Certificates/Slice0/Obligations.lean ====
section
/-! DEFINITION. The statements for the provers. Each docstring names the rule of spec/ that it formalises, and what of
it is the spec's own decision (`[decision: Dn]`), its general knowledge, or the model's choice (log n). -/

namespace Sys2Proof.Claims

open Sys2Proof.Machine

/-- `S`, the sum of the static operand lengths that are present (30_encoding.md R72), written as the rule writes it. -/
def inlineSum (d : Descriptor) : Nat :=
  (d.operands.filterMap fun o => o.bytes).sum

/-- The state after a mapped instruction of `n` bytes, as 40_decode_loop.md R102 writes it: `p = a0 + n`,
`pc <- min(p, 0xFFFF)`, and the halt PcOverflow when `p >= 0xFFFF`. -/
def skipped (s : State) (n : Nat) : State :=
  { s with
    pc := BitVec.ofNat 16 (min (s.pc.toNat + n) 0xFFFF)
    run := if 0xFFFF ≤ s.pc.toNat + n then .halted .pcOverflow else .running }

/-- The state after the halt UnknownOpcode with `k` opcode bytes fetched (40_decode_loop.md R102, R107). -/
def unknownHalt (s : State) (prefixed : Bool) (op : Byte) (k : Nat) : State :=
  { s with
    pc := BitVec.ofNat 16 (min (s.pc.toNat + k) 0xFFFF)
    run := .halted (.unknownOpcode prefixed op s.pc) }

/-- What R112 of 40_decode_loop.md says of a record, but for the operand bytes (which `RecordOperandBytes` states). -/
def recordOf (r : DecodeRecord) (s : State) (prefixed : Bool) (op : Byte) (d : Descriptor) (n : Nat) : Prop :=
  r.address = s.pc ∧ r.prefixed = prefixed ∧ r.opcode = op ∧ r.descriptor = d ∧ r.mnemonic = d.mnemonic ∧ r.length = n

/-- Every part of the state but `pc` and `run` is as before, seen through the reads of each. -/
def onlyPcAndRun (s t : State) : Prop :=
  (∀ r, t.read8 r = s.read8 r) ∧ (∀ p, t.read16 p = s.read16 p) ∧ (∀ f, t.testFlag f = s.testFlag f) ∧
  t.readSp = s.readSp ∧ (∀ a, t.memRead a = s.memRead a) ∧ t.regs = s.regs ∧ t.mem = s.mem

end Sys2Proof.Claims

open Sys2Proof Sys2Proof.Machine Sys2Proof.Claims

/-! ## Fetch, decode, encode -/

/-- 40_decode_loop.md R102: a step in Running is the meaning of the instruction decoded at the pc, under REF_CAT and
under any catalog, and it emits that instruction's record. -/
def Obligations.StepRunsDecodedInstruction : Prop :=
  ∀ (cat : Catalog) (s : State) (i : Instr) (rest : List Byte), s.run = .running →
    (decode s.fetchWindow = .ok (i, rest) → step s = exec i s ∧ stepRecord s = emit i s) ∧
    (decodeWith cat s.fetchWindow = .ok (i, rest) → stepWith cat s = exec i s ∧ recordWith cat s = emit i s)

/-- 20_memory.md R54, R57: what a step fetches is memory, byte by byte from the pc, and nothing past 0xFFFF. -/
def Obligations.FetchWindowIsMemoryFromPc : Prop :=
  ∀ (s : State) (n : Nat), s.fetchWindow[n]? = s.memRead (s.pc.toNat + n)

/-- opcode_table.json, 41_catalog.md R154 and R155 (general knowledge, log 1): a few words of the table, written out
from the table's own bits (an operand byte follows its opcode in the next eight bits: 30_encoding.md R73), decode to their
rows: of each length, of each of the four CB groups, and an ILLEGAL row. -/
def Obligations.TableWordsDecodeToTheirRows : Prop :=
  decodeTableWord 8 0x00 = some .nop ∧
  decodeTableWord 8 0x41 = some (.ldR8R8 .b .c) ∧
  decodeTableWord 8 0x76 = some .halt ∧
  decodeTableWord 8 0x86 = some (.addR8 .hlMem) ∧
  decodeTableWord 8 0xC3 = some (.jpA16 (some 0) (some 0)) ∧
  decodeTableWord 8 0xEF = some (.rst 5) ∧
  decodeTableWord 8 0xD3 = some .illegalD3 ∧
  decodeTableWord 16 0x423E = some (.ldR8N8 .a (some 0x42)) ∧
  decodeTableWord 16 0xFE18 = some (.jrE8 (some 0xFE)) ∧
  decodeTableWord 16 0xCB00 = some (.rlc .b) ∧
  decodeTableWord 16 0xCB7C = some (.bit 7 .h) ∧
  decodeTableWord 16 0xCB99 = some (.res 3 .c) ∧
  decodeTableWord 16 0xCBCB = some (.setBit 1 .e) ∧
  decode [0xC3, 0x50, 0x01, 0x99] = .ok (.jpA16 (some 0x50) (some 0x01), [0x99])

/-- 30_encoding.md R70 to R73: for every well-formed row of REF_CAT and whatever follows it, decoding its encoding gives
it back. Operand bytes may be absent only where nothing follows (log 6). -/
def Obligations.DecodeOfEncodeReference : Prop :=
  ∀ (i : Instr) (rest : List Byte), i.isReference = true → i.wf = true → (i.complete = true ∨ rest = []) →
    decode (encode i ++ rest) = .ok (i, rest)

/-- 30_encoding.md R70 to R73: whatever the decoder reads under REF_CAT is well formed, and its encoding followed by the
bytes left over is the input, with operand bytes absent only at the end. -/
def Obligations.EncodeOfDecodeReference : Prop :=
  ∀ (bs rest : List Byte) (i : Instr), decode bs = .ok (i, rest) →
    encode i ++ rest = bs ∧ i.wf = true ∧ (i.isReference = true ∨ i = .escape) ∧ (i.complete = true ∨ rest = [])

/-- 30_encoding.md R70 to R77: the same for the decoder-level rows of every catalog. -/
def Obligations.DecodeOfEncodeEveryCatalog : Prop :=
  ∀ (cat : Catalog) (i : Instr) (rest : List Byte), i.inCatalog cat → i.wf = true → i ≠ .escape →
    (i.complete = true ∨ rest = []) → decodeWith cat (encode i ++ rest) = .ok (i, rest)

/-- 30_encoding.md R70 to R77: whatever the decoder reads under a catalog is a well-formed row of that catalog, and its
encoding followed by the bytes left over is the input. -/
def Obligations.EncodeOfDecodeEveryCatalog : Prop :=
  ∀ (cat : Catalog) (bs rest : List Byte) (i : Instr), decodeWith cat bs = .ok (i, rest) →
    encode i ++ rest = bs ∧ i.wf = true ∧ i.inCatalog cat

/-- opcode_table.json, 41_catalog.md R154, R155, R157 (general knowledge, log 1): the typed rows and the grid of REF_CAT
agree in mnemonic, operand names, operand lengths and declared length, row by row. -/
def Obligations.ReferenceRowsMatchTheGrid : Prop :=
  ∀ i : Instr, i.isReference = true → i.wf = true →
    ∃ d, refCat.lookup i.prefixed i.opcode = some d ∧ d.mnemonic = i.tableMnemonic ∧
      d.operands.map (fun o => o.name) = i.operandNames ∧ inlineSum d = i.inline.length ∧ d.bytes = i.length

/-- 00_scope.md R12: the step that reads the table's own rows is the block's step for the catalog REF_CAT, in every
state, with the same record. -/
def Obligations.StepIsTheReferenceCatalogStep : Prop :=
  ∀ s : State, step s = stepWith refCat s ∧ stepRecord s = recordWith refCat s

/-! ## The step under every catalog -/

/-- 40_decode_loop.md R117: an unprefixed mapped opcode, under every catalog. (The write-back `min(p, 0xFFFF)` in the
rule's pseudocode is the spec's decision D3, when the record is emitted D14, log 7.) -/
def Obligations.UnprefixedMappedStep : Prop :=
  ∀ (cat : Catalog) (s : State) (o : Byte) (d : Descriptor),
    s.run = .running → s.memRead s.pc.toNat = some o → o ≠ 0xCB → cat.unprefixed o = some d →
      stepWith cat s = .next (skipped s (1 + inlineSum d)) ∧
      ∃ r, recordWith cat s = some r ∧ recordOf r s false o d (1 + inlineSum d)

/-- 40_decode_loop.md R122: a CB-prefixed mapped opcode, under every catalog. (The write-back is the spec's
decision D3, when the record is emitted D14, log 7.) -/
def Obligations.CbMappedStep : Prop :=
  ∀ (cat : Catalog) (s : State) (o : Byte) (d : Descriptor),
    s.run = .running → s.memRead s.pc.toNat = some 0xCB → s.memRead (s.pc.toNat + 1) = some o →
      cat.cbprefixed o = some d →
      stepWith cat s = .next (skipped s (2 + inlineSum d)) ∧
      ∃ r, recordWith cat s = some r ∧ recordOf r s true o d (2 + inlineSum d)

/-- 40_decode_loop.md R124: an unprefixed unmapped opcode halts with UnknownOpcode and emits no record. (The rule's pc
is `a0 + 1`, which is an address because `a0 <= 0xFFFE`. That no record is emitted is the spec's decision D14, and that the
reason at 0xFFFE is UnknownOpcode its decision D5, log 7.) -/
def Obligations.UnprefixedUnmappedHalts : Prop :=
  ∀ (cat : Catalog) (s : State) (o : Byte),
    s.run = .running → s.pc.toNat ≤ 0xFFFE → s.memRead s.pc.toNat = some o → o ≠ 0xCB → cat.unprefixed o = none →
      stepWith cat s = .next { s with pc := s.pc + 1, run := .halted (.unknownOpcode false o s.pc) } ∧
      recordWith cat s = none

/-- 40_decode_loop.md R125: a CB-prefixed unmapped opcode halts with UnknownOpcode, at the address of the escape byte,
and emits no record. (The recorded address is the spec's decision D4, the write-back D3.) -/
def Obligations.CbUnmappedHalts : Prop :=
  ∀ (cat : Catalog) (s : State) (o : Byte),
    s.run = .running → s.memRead s.pc.toNat = some 0xCB → s.memRead (s.pc.toNat + 1) = some o →
      cat.cbprefixed o = none →
      stepWith cat s = .next (unknownHalt s true o 2) ∧ recordWith cat s = none

/-- 40_decode_loop.md R111 (the spec's decision D5): where both halts could apply, UnknownOpcode wins. -/
def Obligations.UnknownOpcodeWinsOverPcOverflow : Prop :=
  ∀ (cat : Catalog) (s : State) (o : Byte),
    s.run = .running → s.pc = 0xFFFE#16 → s.memRead 0xFFFE = some 0xCB → s.memRead 0xFFFF = some o →
      cat.cbprefixed o = none →
      stepWith cat s = .next { s with pc := 0xFFFF#16, run := .halted (.unknownOpcode true o 0xFFFE#16) }

/-- 40_decode_loop.md R121: the no-operation instruction, as the table's row and under every catalog whose entry for
0x00 has no inline operand. -/
def Obligations.NoOperationConsumesOneByte : Prop :=
  ∀ (cat : Catalog) (s : State) (d : Descriptor),
    s.run = .running → s.pc.toNat ≤ 0xFFFE → s.memRead s.pc.toNat = some 0x00 → cat.unprefixed 0x00 = some d →
      inlineSum d = 0 →
      (s.pc.toNat < 0xFFFE → stepWith cat s = .next { s with pc := s.pc + 1 } ∧
        exec .nop s = .next { s with pc := s.pc + 1 }) ∧
      (s.pc.toNat = 0xFFFE → stepWith cat s = .next { s with pc := 0xFFFF#16, run := .halted .pcOverflow } ∧
        exec .nop s = .next { s with pc := 0xFFFF#16, run := .halted .pcOverflow })

/-- 40_decode_loop.md R123: the pair (0xCB, 0x00), under every catalog whose CB entry for 0x00 has no inline operand.
(At 0xFFFE the write-back is the spec's decision D3, log 7.) -/
def Obligations.CbZeroConsumesTwoBytes : Prop :=
  ∀ (cat : Catalog) (s : State) (d : Descriptor),
    s.run = .running → s.memRead s.pc.toNat = some 0xCB → s.memRead (s.pc.toNat + 1) = some 0x00 →
      cat.cbprefixed 0x00 = some d → inlineSum d = 0 →
      (s.pc.toNat < 0xFFFD → stepWith cat s = .next { s with pc := s.pc + 2 }) ∧
      (0xFFFD ≤ s.pc.toNat → stepWith cat s = .next { s with pc := 0xFFFF#16, run := .halted .pcOverflow })

/-! ## Every instruction completes -/

/-- 40_decode_loop.md, section 5 (the length classes are the spec's general knowledge, log 1, the write-back its decision
D3, log 7): every one-byte row runs
from Running and only skips one byte. The rows: ldMemA, ldAMem, ldR8R8, ldSpHl, ldhCA, ldhAC, pushPair, popPair, incR16,
decR16, incR8, decR8, addHlR16, addR8, adcR8, subR8, sbcR8, andR8, xorR8, orR8, cpR8, rlca, rrca, rla, rra, daa, cpl, scf,
ccf, jpHl, ret, retCond, reti, rst, nop, halt, di, ei, illegalD3, illegalDB, illegalDD, illegalE3, illegalE4, illegalEB,
illegalEC, illegalED, illegalF4, illegalFC, illegalFD. -/
def Obligations.OneByteRowsComplete : Prop :=
  ∀ (i : Instr) (s : State), i.format = .u1 → s.run = .running → exec i s = .next (skipped s 1)

/-- 40_decode_loop.md, section 5 (general knowledge, log 1; write-back D3, log 7): every two-byte unprefixed row runs from Running and only
skips two bytes. The rows: ldR8N8, ldHlSpE8, ldhA8A, ldhAA8, addSpE8, addN8, adcN8, subN8, sbcN8, andN8, xorN8, orN8, cpN8,
jrE8, jrCondE8, stopN8. -/
def Obligations.TwoByteRowsComplete : Prop :=
  ∀ (i : Instr) (s : State), i.format = .u2 → s.run = .running → exec i s = .next (skipped s 2)

/-- 40_decode_loop.md, section 5 (general knowledge, log 1; write-back D3, log 7): every three-byte row runs from Running and only skips three
bytes. The rows: ldR16N16, ldA16Sp, ldA16A, ldAA16, jpA16, jpCondA16, callA16, callCondA16. -/
def Obligations.ThreeByteRowsComplete : Prop :=
  ∀ (i : Instr) (s : State), i.format = .u3 → s.run = .running → exec i s = .next (skipped s 3)

/-- 40_decode_loop.md, section 6 (general knowledge, log 1; write-back D3, log 7): every CB row of REF_CAT runs from Running and only skips two
bytes. The rows: rlc, rrc, rl, rr, sla, sra, swap, srl, bit, res, setBit. -/
def Obligations.CbRowsComplete : Prop :=
  ∀ (i : Instr) (s : State), i.format = .cb2 → s.run = .running → exec i s = .next (skipped s 2)

/-- 40_decode_loop.md R102, sections 5 and 6: the decoder-level rows run from Running: unprefixedMapped and cbMapped skip
their bytes, unprefixedUnknown and cbUnknown take the halt UnknownOpcode, which is their whole effect. (Write-back and
recorded address: the spec's decisions D3, D4.) -/
def Obligations.DecoderRowsComplete : Prop :=
  ∀ (op : Byte) (d : Descriptor) (inline : List (Option Byte)) (s : State), s.run = .running →
    exec (.unprefixedMapped op d inline) s = .next (skipped s (1 + inlineSum d)) ∧
    exec (.cbMapped op d inline) s = .next (skipped s (2 + inlineSum d)) ∧
    exec (.unprefixedUnknown op) s = .next (unknownHalt s false op 1) ∧
    exec (.cbUnknown op) s = .next (unknownHalt s true op 2)

/-- 40_decode_loop.md R104 (that the escape row resolves under REF_CAT is the model's choice, log 13): the escape runs
from Running wherever its second byte exists: it fetches that byte and does what the CB row of that byte does. -/
def Obligations.EscapeCompletesAsItsCbRow : Prop :=
  ∀ (s : State) (o : Byte), s.run = .running → s.memRead (s.pc.toNat + 1) = some o →
    exec .escape s = .next (skipped s 2) ∧ exec .escape s = exec (decodeCb o) s ∧
    emit .escape s = emit (decodeCb o) s

/-- The model's choice (log 4), resting on 40_decode_loop.md R106: the escape at address 0xFFFF, which no running state
reaches, stops, since its second byte does not exist. -/
def Obligations.EscapeAtTheLastAddressStops : Prop :=
  ∀ s : State, s.pc = 0xFFFF#16 → exec .escape s = .fault (.fetchOutsideMemory 0x10000)

/-! ## Frames and what a step does not depend on -/

/-- 40_decode_loop.md R109: a step writes `pc` and, when it halts, `run`, and nothing else; under every catalog. -/
def Obligations.StepWritesOnlyPcAndRun : Prop :=
  ∀ (cat : Catalog) (s t : State), stepWith cat s = .next t →
    onlyPcAndRun s t ∧ (t.run = s.run ∨ ∃ reason, t.run = .halted reason)

/-- 00_scope.md R7, 40_decode_loop.md R126 to R128: the frame of every instruction. No instruction has a destination
register and none stores: whatever it answers, every register, pair, flag, the stack pointer and every byte of memory are
as before. -/
def Obligations.InstructionFrame : Prop :=
  ∀ (i : Instr) (s t : State), exec i s = .next t → onlyPcAndRun s t

/-- 40_decode_loop.md R108, 30_encoding.md R74, 10_state.md R23: what a step does to `pc` and `run` depends on the pc, on
the opcode byte(s) and on the catalog only: two states that may differ in every register, in the stack pointer and in
every other byte of memory, the operand bytes among them, step alike. -/
def Obligations.OperandValuesAreNotConsulted : Prop :=
  ∀ (cat : Catalog) (s s' t : State), s'.pc = s.pc → s'.run = s.run →
    s'.memRead s.pc.toNat = s.memRead s.pc.toNat →
    (s.memRead s.pc.toNat = some 0xCB → s'.memRead (s.pc.toNat + 1) = s.memRead (s.pc.toNat + 1)) →
    stepWith cat s = .next t →
      ∃ t', stepWith cat s' = .next t' ∧ t'.pc = t.pc ∧ t'.run = t.run

/-- 40_decode_loop.md section 5, 30_encoding.md section 4: a mapped entry matters to the state only through its inline
length: two catalogs that map the same keys to entries of the same inline lengths, whatever the mnemonics, declared
lengths, cycles and flag effects, give the same step. -/
def Obligations.OnlyOperandLengthsMatter : Prop :=
  ∀ (cat cat' : Catalog) (s : State),
    (∀ prefixed op, (cat.lookup prefixed op).map inlineSum = (cat'.lookup prefixed op).map inlineSum) →
      stepWith cat s = stepWith cat' s

/-- 30_encoding.md R75 (an inference of the spec): the unprefixed entry under 0xCB has no effect on any step or record. -/
def Obligations.UnprefixedEscapeEntryIsNeverConsulted : Prop :=
  ∀ (cat cat' : Catalog) (s : State),
    (∀ op, cat'.cbprefixed op = cat.cbprefixed op) → (∀ op, op ≠ 0xCB → cat'.unprefixed op = cat.unprefixed op) →
      stepWith cat' s = stepWith cat s ∧ recordWith cat' s = recordWith cat s

/-- 30_encoding.md R71 (an inference of the spec): the escape is tested on the first byte only; CB CB is the CB-space
opcode 0xCB. -/
def Obligations.SecondEscapeIsAnOpcode : Prop :=
  ∀ (cat : Catalog) (rest : List Byte),
    (∀ d, cat.lookup true 0xCB = some d → ∃ inline rest', decodeWith cat (0xCB :: 0xCB :: rest) = .ok (.cbMapped 0xCB d inline, rest')) ∧
    (cat.lookup true 0xCB = none → decodeWith cat (0xCB :: 0xCB :: rest) = .ok (.cbUnknown 0xCB, rest))

/-! ## Progress, invariants, termination -/

/-- 40_decode_loop.md R115 (an inference of the spec): a step from an instruction address raises the pc by at least 1. -/
def Obligations.PcAdvancesByAtLeastOne : Prop :=
  ∀ (cat : Catalog) (s t : State), s.pc.toNat ≤ 0xFFFE → stepWith cat s = .next t →
    s.pc.toNat + 1 ≤ t.pc.toNat

/-- 60_exceptions.md R201 to R203, 40_decode_loop.md R107, R110: a step that leaves Running does so for one of two
reasons: the looked-up opcode is unmapped, or a mapped one leaves an exact next pc of at least 0xFFFF, and the pc is then
0xFFFF. (Recorded address and write-back: the spec's decisions D3, D4.) -/
def Obligations.HaltsOnlyForTwoReasons : Prop :=
  ∀ (cat : Catalog) (s t : State), s.pc.toNat ≤ 0xFFFE → stepWith cat s = .next t → t.run ≠ .running →
    (∃ prefixed op, t.run = .halted (.unknownOpcode prefixed op s.pc) ∧ cat.lookup prefixed op = none ∧
      (if prefixed then s.memRead s.pc.toNat = some 0xCB ∧ s.memRead (s.pc.toNat + 1) = some op
        else s.memRead s.pc.toNat = some op ∧ op ≠ 0xCB)) ∨
    (t.run = .halted .pcOverflow ∧ t.pc = 0xFFFF#16 ∧
      ∃ r, recordWith cat s = some r ∧ 0xFFFF ≤ s.pc.toNat + r.length)

/-- 10_state.md R33: once halted, no step changes any part of the state and the reason is never replaced: there is no
step, under any catalog, and the machine says with which result the run ended. (That this answer is the fault `runEnded` with
the reason is the model's reading of 40_decode_loop.md R101, DEDUCED, log 4.) -/
def Obligations.HaltedStateHasNoStep : Prop :=
  ∀ (cat : Catalog) (s : State) (reason : HaltReason) (n : Nat), s.run = .halted reason →
    stepWith cat s = .fault (.runEnded reason) ∧ step s = .fault (.runEnded reason) ∧
    recordWith cat s = none ∧ runWith cat (n + 1) s = .fault (.runEnded reason)

/-- 40_decode_loop.md R101, R105, R106: in Running, in a state that meets the invariant, a step always answers a next
state: no lookup and no fetch can fail. -/
def Obligations.RunningStateAlwaysSteps : Prop :=
  ∀ (cat : Catalog) (s : State), s.Inv → s.run = .running → ∃ t, stepWith cat s = .next t

/-- 10_state.md R24, R29, R30, with the model's canonical memory: every step, under every catalog and under REF_CAT, from
every state that meets the invariant gives one that meets it. -/
def Obligations.StepKeepsInvariant : Prop :=
  ∀ (cat : Catalog) (s t : State), s.Inv → (stepWith cat s = .next t ∨ step s = .next t) → t.Inv

/-- The invariant holds at reset (10_state.md R39). -/
def Obligations.ResetMeetsInvariant : Prop :=
  State.reset.Inv

/-- 42_state_operations.md R170: the values that `new()` gives, every register, every memory byte, the run state. (That
the stack pointer is among the registers zeroed is the spec's decision D26, log 7.) -/
def Obligations.ResetValues : Prop :=
  State.new.readPc = 0x0100#16 ∧ (∀ r, State.new.read8 r = 0x00#8) ∧ (∀ p, State.new.read16 p = 0x0000#16) ∧
  State.new.readSp = 0x0000#16 ∧ (∀ a : Word, State.new.readMem a = 0x00#8) ∧ State.new.readRun = .running ∧
  State.new = State.reset

/-- 42_state_operations.md R182, 10_state.md R24, R30: every host operation keeps the invariant. -/
def Obligations.HostOperationsKeepInvariant : Prop :=
  ∀ (op : HostOp) (s t : State), s.Inv → op.apply s = .ok t → t.Inv

/-- 10_state.md R24, R30, with the model's canonical memory: the invariant holds in every state that a machine with any
catalog can be in, after any setup, during the run and after the halt. -/
def Obligations.ReachableStatesMeetInvariant : Prop :=
  ∀ (cat : Catalog) (s : State), Reachable cat s → s.Inv

/-- 40_decode_loop.md R114, 70_reset_and_hazards.md R239 (inferences of the spec): the loop always halts. From every
running state whose pc is an instruction address, with any memory and any catalog, a halt is reached within
0xFFFF - pc steps; from the reset pc 0x0100 that is 0xFEFF. -/
def Obligations.LoopAlwaysHalts : Prop :=
  ∀ (cat : Catalog) (s : State), s.run = .running → s.pc.toNat ≤ 0xFFFE →
    ∃ n t, n ≤ 0xFFFF - s.pc.toNat ∧ runWith cat n s = .next t ∧
      (t.run = .halted .pcOverflow ∨ ∃ prefixed op address, t.run = .halted (.unknownOpcode prefixed op address))

/-- 20_memory.md R55: a run changes no byte of memory, from the first step to the halt; and (10_state.md R23) no register
and not the stack pointer. -/
def Obligations.MemoryIsConstantDuringARun : Prop :=
  ∀ (cat : Catalog) (n : Nat) (s t : State), runWith cat n s = .next t → onlyPcAndRun s t

/-- 41_catalog.md R156 (an inference of the spec, on its general knowledge; log 1): under REF_CAT no step halts with
UnknownOpcode, so every run that halts ends with PcOverflow. -/
def Obligations.ReferenceRunsEndWithPcOverflow : Prop :=
  ∀ (n : Nat) (s t : State), s.run = .running → runWith refCat n s = .next t →
    t.run = .running ∨ t.run = .halted .pcOverflow

/-! ## The decode record -/

/-- 40_decode_loop.md R113, 30_encoding.md R73 (the spec's decision D13): a record lists exactly the operands with a static
length, in list order, and the bytes of each are those of memory at its offset, absent past 0xFFFF. -/
def Obligations.RecordOperandBytes : Prop :=
  ∀ (cat : Catalog) (s : State) (r : DecodeRecord), recordWith cat s = some r →
    r.operands.map (fun o => o.1) = (r.descriptor.operands.filter fun o => o.bytes.isSome).map (fun o => o.name) ∧
    ∀ (before after : List OperandDescriptor) (o : OperandDescriptor) (n : Nat),
      r.descriptor.operands = before ++ o :: after → o.bytes = some n →
        r.operands[(before.filter fun o => o.bytes.isSome).length]? =
          some (o.name, (List.range n).map fun i =>
            s.memRead (s.pc.toNat + (if r.prefixed then 2 else 1) + (before.filterMap fun o => o.bytes).sum + i))

/-- 40_decode_loop.md R112, 60_exceptions.md R216 (when a record is emitted is the spec's decision D14): a run of `n` steps
emits `n` records, less the one that the step halting with UnknownOpcode does not emit. -/
def Obligations.OneRecordPerSuccessfulStep : Prop :=
  ∀ (cat : Catalog) (n : Nat) (s t : State), s.run = .running → runWith cat n s = .next t →
    (t.run = .running ∨ t.run = .halted .pcOverflow → (traceWith cat n s).length = n) ∧
    (∀ prefixed op address, t.run = .halted (.unknownOpcode prefixed op address) →
      (traceWith cat n s).length + 1 = n)

/-- 40_decode_loop.md R129, 95_test_vectors.md W1: under `CatalogWF`, the consumed length in the record is the entry's
declared length, and below the top of memory the pc advances by exactly it. -/
def Obligations.ConsumedLengthIsDeclaredLength : Prop :=
  ∀ (cat : Catalog) (s : State) (r : DecodeRecord), cat.WF → recordWith cat s = some r →
    r.length = r.descriptor.bytes ∧
    (s.pc.toNat + r.descriptor.bytes < 0xFFFF →
      ∃ t, stepWith cat s = .next t ∧ t.pc.toNat = s.pc.toNat + r.descriptor.bytes ∧ t.run = .running)

/-- 41_catalog.md R157 (general knowledge, log 1): REF_CAT satisfies `CatalogWF`. -/
def Obligations.ReferenceCatalogIsWellFormed : Prop :=
  ∀ (prefixed : Bool) (op : Byte) (d : Descriptor), refCat.lookup prefixed op = some d →
    d.bytes = (if prefixed then 2 else 1) + inlineSum d

/-- 41_catalog.md R156 (general knowledge, log 1): REF_CAT maps every key of both spaces. -/
def Obligations.ReferenceCatalogMapsEveryKey : Prop :=
  ∀ (prefixed : Bool) (op : Byte), (refCat.lookup prefixed op).isSome = true

/-! ## The processor-state operations -/

/-- 42_state_operations.md R171: an image that fits is placed at 0x0100, byte by byte, and nothing else changes; one that
does not fit fails. -/
def Obligations.LoadProgramPlacesTheImage : Prop :=
  ∀ (s : State) (img : List Byte), s.mem.wf →
    (img.length + 0x100 > 0x10000 → s.loadProgram img = .error .romTooLarge) ∧
    (img.length + 0x100 ≤ 0x10000 →
      ∃ t, s.loadProgram img = .ok t ∧
        (∀ i, i < img.length → t.memRead (0x100 + i) = img[i]?) ∧
        (∀ a, a < 0x100 ∨ 0x100 + img.length ≤ a → t.memRead a = s.memRead a) ∧
        t.pc = s.pc ∧ t.regs = s.regs ∧ t.sp = s.sp ∧ t.run = s.run ∧ t.mem.wf)

/-- 42_state_operations.md R172: an image that does not fit fails with RomTooLarge, and nothing is written, since there is
no new state. -/
def Obligations.LoadProgramRefusesATooLargeImage : Prop :=
  ∀ (s : State) (img : List Byte), img.length + 0x100 > 0x10000 → s.loadProgram img = .error .romTooLarge

/-- 42_state_operations.md R174: what each 8-bit register reads as: its stored byte, and F with its low nibble zero. -/
def Obligations.RegisterReads : Prop :=
  ∀ s : State, s.read8 .a = s.regs.a ∧ s.read8 .b = s.regs.b ∧ s.read8 .c = s.regs.c ∧ s.read8 .d = s.regs.d ∧
    s.read8 .e = s.regs.e ∧ s.read8 .h = s.regs.h ∧ s.read8 .l = s.regs.l ∧
    s.read8 .f = s.regs.f.extractLsb' 4 4 ++ 0#4

/-- 42_state_operations.md R175: what each 8-bit register reads after a write to one of them; F keeps its top four
bits only; nothing else changes. (Masking F at the write is the spec's decision D9; no accessor can tell.) -/
def Obligations.RegisterWriteAndRead : Prop :=
  ∀ (s : State) (r r' : Reg8) (v : Byte),
    (s.write8 r v).read8 r' = (if r' = r then (if r = .f then v &&& 0xF0#8 else v) else s.read8 r') ∧
    (s.write8 r v).pc = s.pc ∧ (s.write8 r v).sp = s.sp ∧ (s.write8 r v).mem = s.mem ∧ (s.write8 r v).run = s.run

/-- 42_state_operations.md R176, R177: a pair reads as its halves, the first-named one high; a write to a pair writes both
halves and no other register. (Names and half order: the spec's decision D7, log 8.) -/
def Obligations.PairWriteAndRead : Prop :=
  ∀ (s : State) (p p' : RegPair) (v : Word),
    s.read16 .af = s.read8 .a ++ s.read8 .f ∧ s.read16 .bc = s.read8 .b ++ s.read8 .c ∧
    s.read16 .de = s.read8 .d ++ s.read8 .e ∧ s.read16 .hl = s.read8 .h ++ s.read8 .l ∧
    (s.write16 p v).read16 p' = (if p' = p then (if p = .af then v &&& 0xFFF0#16 else v) else s.read16 p') ∧
    (s.write16 p v).pc = s.pc ∧ (s.write16 p v).sp = s.sp ∧ (s.write16 p v).mem = s.mem ∧
    (s.write16 p v).run = s.run

/-- 10_state.md R24: the top four bits of F are the four flags, one bit each, and its low nibble, and so that of AF,
reads as zero, in every state, regardless of prior writes. (Which flag is which bit is D8: see `FlagAccessors`.) -/
def Obligations.FlagRegisterLayout : Prop :=
  ∀ s : State,
    (∀ f : Flag, 4 ≤ f.bit ∧ f.bit ≤ 7 ∧ s.testFlag f = (s.read8 .f).getLsbD f.bit ∧ ∀ g : Flag, g.bit = f.bit → g = f) ∧
    s.read8 .f &&& 0x0F#8 = 0#8 ∧ s.read16 .af &&& 0x000F#16 = 0#16

/-- 42_state_operations.md R179 to R181: the flags are the bits 7, 6, 5, 4 of F; setting or clearing one changes that bit
only, and no other register. (Bit positions: the spec's decision D8, log 8.) -/
def Obligations.FlagAccessors : Prop :=
  ∀ (s : State) (f g : Flag) (r : Reg8), r ≠ .f →
    s.testFlag .z = (s.read8 .f)[7] ∧ s.testFlag .n = (s.read8 .f)[6] ∧ s.testFlag .h = (s.read8 .f)[5] ∧
    s.testFlag .c = (s.read8 .f)[4] ∧
    (s.setFlag f).testFlag g = (g = f || s.testFlag g) ∧ (s.clearFlag f).testFlag g = (g ≠ f && s.testFlag g) ∧
    (s.setFlag f).read8 .f &&& 0x0F#8 = 0#8 ∧ (s.clearFlag f).read8 .f &&& 0x0F#8 = 0#8 ∧
    (s.setFlag f).read8 r = s.read8 r ∧ (s.clearFlag f).read8 r = s.read8 r ∧
    (s.setFlag f).pc = s.pc ∧ (s.setFlag f).sp = s.sp ∧ (s.setFlag f).mem = s.mem ∧ (s.setFlag f).run = s.run ∧
    (s.clearFlag f).pc = s.pc ∧ (s.clearFlag f).sp = s.sp ∧ (s.clearFlag f).mem = s.mem ∧ (s.clearFlag f).run = s.run

/-- 42_state_operations.md R178: the stack pointer reads what was written, and is in no pair. -/
def Obligations.StackPointerIsInNoPair : Prop :=
  ∀ (s : State) (v : Word) (p : RegPair),
    (s.writeSp v).readSp = v ∧ (s.writeSp v).read16 p = s.read16 p ∧ (s.write16 p v).readSp = s.readSp ∧
    s.readSp = s.sp ∧ (s.writeSp v).pc = s.pc ∧ (s.writeSp v).mem = s.mem ∧ (s.writeSp v).run = s.run

/-- 10_state.md R32 (the spec's decision D15): the fields of the packed status word. -/
def Obligations.StatusWordFields : Prop :=
  RunState.running.statusWord = 0#32 ∧ (RunState.halted .pcOverflow).statusWord = 1#32 ∧
  ∀ (prefixed : Bool) (op : Byte) (address : Word),
    let w := (RunState.halted (.unknownOpcode prefixed op address)).statusWord
    w.extractLsb' 0 2 = 2#2 ∧ w.extractLsb' 2 1 = BitVec.ofBool prefixed ∧ w.extractLsb' 3 5 = 0#5 ∧
    w.extractLsb' 8 8 = op ∧ w.extractLsb' 16 16 = address

/-! ## Catalog loading and boot -/

/-- 41_catalog.md R149, 95_test_vectors.md W8 (the key's spelling is the spec's decision D10, log 9): the reference key
format reads back all 256 keys it renders. -/
def Obligations.ReferenceKeyFormatRoundTrip : Prop :=
  keyFormatAgrees referenceKeyFormat ∧ referenceKeyFormat.render 10#8 = "0x0A" ∧ referenceKeyFormat.render 203#8 = "0xCB"

/-- 41_catalog.md R141 to R143, R150, R152 (ranges and flag symbols: the spec's decisions D11 and D12, log 7; the shape of
a source, and that the first of the records with one key counts, are the model's, log 9): a table that is malformed nowhere
loads; and a load that succeeds gives a whole catalog: both collections were there, every record's key was read and is
mapped, and every entry has all its fields, the operands in order among them, from the first record with its key. -/
def Obligations.CatalogLoadIsWhole : Prop :=
  ∀ (fmt : KeyFormat) (table : RawTable),
    ((∀ key field, ¬ MalformedTable fmt table key field) → ∃ cat, loadCatalog fmt (.table table) = .ok cat) ∧
    ∀ cat, loadCatalog fmt (.table table) = .ok cat →
      ∃ u c, table.unprefixed = .present u ∧ table.cbprefixed = .present c ∧
        (∀ e ∈ u, ∃ op, fmt.parse e.key = some op ∧ (cat.lookup false op).isSome) ∧
        (∀ e ∈ c, ∃ op, fmt.parse e.key = some op ∧ (cat.lookup true op).isSome) ∧
        ∀ (prefixed : Bool) (op : Byte) (d : Descriptor), cat.lookup prefixed op = some d →
          ∃ before e after, (if prefixed then c else u) = before ++ e :: after ∧
            (∀ e' ∈ before, fmt.parse e'.key ≠ some op) ∧ RecordSays fmt e op d

/-- 41_catalog.md R150, R151 (ranges of `bytes` and `cycles`: the spec's decision D12, log 7; the shape of a source, how a
field is named and the empty key of a missing collection are the model's, log 9): an unreadable source is
CatalogUnavailable; a table that is malformed somewhere, by a missing collection or a record with an unreadable key or a
missing, mistyped or out-of-range field, fails the load with MalformedCatalog, which names a key and a field at which the
table is malformed; and a load of a table fails in no other way. -/
def Obligations.MalformedRecordFailsTheLoad : Prop :=
  ∀ (fmt : KeyFormat) (table : RawTable),
    loadCatalog fmt .unreadable = .error .catalogUnavailable ∧
    ((∃ key field, MalformedTable fmt table key field) → ∃ error, loadCatalog fmt (.table table) = .error error) ∧
    ∀ error, loadCatalog fmt (.table table) = .error error →
      ∃ key field, error = .malformedCatalog key field ∧ MalformedTable fmt table key field

/-- 70_reset_and_hazards.md R233, 60_exceptions.md R208 (the order is the spec's decision D19): the catalog is loaded
first and its error is reported first; then the image; then the loop is entered in Running at 0x0100, with the image in
memory, zeros around it, and every register zero. -/
def Obligations.BootOrder : Prop :=
  ∀ (fmt : KeyFormat) (source : Source) (img : List Byte),
    (∀ e, loadCatalog fmt source = .error e → boot fmt source img = .error e) ∧
    (∀ cat, loadCatalog fmt source = .ok cat → img.length + 0x100 > 0x10000 →
      boot fmt source img = .error .romTooLarge) ∧
    (∀ cat, loadCatalog fmt source = .ok cat → img.length + 0x100 ≤ 0x10000 →
      ∃ s, boot fmt source img = .ok (cat, s) ∧ s.run = .running ∧ s.pc = 0x0100#16 ∧ s.sp = 0x0000#16 ∧
        (∀ r, s.read8 r = 0x00#8) ∧ Reachable cat s ∧
        ∀ a : Word, s.readMem a = if 0x100 ≤ a.toNat then (img[a.toNat - 0x100]?).getD 0x00#8 else 0x00#8)
end

