-- ==== Sys2Proof/Laws/Memory.lean ====
section
/-! SUPPORT. Memory: reading after writing, and that every operation keeps the canonical form. -/

namespace Sys2Proof.Machine

/-- Every listed address is at least `a`. -/
def Memory.above (m : Memory) (a : Nat) : Prop := ∀ p ∈ m, a ≤ p.1

theorem wf_nil : Memory.wf [] :=
  ⟨List.Pairwise.nil, fun _ h => nomatch h⟩

theorem wf_cons {b : Nat} {w : Byte} {m : Memory} :
    Memory.wf ((b, w) :: m) ↔
      (b < Config.memSize ∧ w ≠ unlistedByte) ∧ Memory.above m (b + 1) ∧ Memory.wf m := by
  simp only [Memory.wf, Memory.above, List.pairwise_cons, List.mem_cons, forall_eq_or_imp, Nat.succ_le_iff]
  tauto

theorem above_mono {m : Memory} {a b : Nat} (h : Memory.above m b) (hab : a ≤ b) : Memory.above m a :=
  fun p hp => le_trans hab (h p hp)

theorem read_below {m : Memory} {a b : Nat} (h : Memory.above m b) (hab : a < b) : m.read a = unlistedByte := by
  induction m with
  | nil => rfl
  | cons p m ih =>
    have hp := h p (by simp)
    have hm : Memory.above m b := fun q hq => h q (by simp [hq])
    simp [Memory.read, ih hm]
    omega

theorem above_cons {a b : Nat} {v : Byte} {m : Memory} (hb : b ≤ a) (hm : Memory.above m b) :
    Memory.above (Memory.cons a v m) b := by
  unfold Memory.cons
  split
  · exact hm
  · intro p hp
    rcases List.mem_cons.mp hp with rfl | hp
    · exact hb
    · exact hm p hp

theorem above_write {a b : Nat} {v : Byte} {m : Memory} (hb : b ≤ a) (hm : Memory.above m b) :
    Memory.above (m.write a v) b := by
  induction m with
  | nil => exact above_cons hb hm
  | cons p m ih =>
    have hp := hm p (by simp)
    have hm' : Memory.above m b := fun q hq => hm q (by simp [hq])
    simp only [Memory.write]
    split
    · exact above_cons hb hm
    · split
      · exact above_cons hb hm'
      · intro q hq
        rcases List.mem_cons.mp hq with rfl | hq
        · exact hp
        · exact ih hm' q hq

theorem wf_consByte {a : Nat} {v : Byte} {m : Memory} (ha : a < Config.memSize) (h : Memory.above m (a + 1))
    (hm : m.wf) : (Memory.cons a v m).wf := by
  unfold Memory.cons
  split
  · exact hm
  · exact wf_cons.mpr ⟨⟨ha, ‹_›⟩, h, hm⟩

/-- A write inside the address space keeps the canonical form. -/
theorem wf_write {a : Nat} {v : Byte} {m : Memory} (ha : a < Config.memSize) (hm : m.wf) : (m.write a v).wf := by
  induction m with
  | nil => exact wf_consByte ha (by simp [Memory.above]) hm
  | cons p m ih =>
    obtain ⟨b, w⟩ := p
    obtain ⟨hbw, hab, hm'⟩ := wf_cons.mp hm
    simp only [Memory.write]
    split
    · rename_i hlt
      refine wf_consByte ha ?_ hm
      intro q hq
      rcases List.mem_cons.mp hq with rfl | hq
      · exact hlt
      · exact le_trans (by omega) (hab q hq)
    · split
      · rename_i heq
        subst heq
        exact wf_consByte ha hab hm'
      · exact wf_cons.mpr ⟨hbw, above_write (by omega) hab, ih hm'⟩

/-- Writes inside the address space keep the canonical form. -/
theorem wf_writeBytes {vs : List Byte} {a : Nat} {m : Memory} (ha : a + vs.length ≤ Config.memSize) (hm : m.wf) :
    (m.writeBytes a vs).wf := by
  induction vs generalizing a m with
  | nil => exact hm
  | cons v vs ih =>
    simp only [List.length_cons] at ha
    exact ih (by omega) (wf_write (by omega) hm)

theorem read_consByte {a b : Nat} {v : Byte} {m : Memory} (h : Memory.above m (a + 1)) :
    (Memory.cons a v m).read b = if b = a then v else m.read b := by
  unfold Memory.cons
  by_cases hb : b = a
  · subst hb
    split
    · simp_all [read_below h (Nat.lt_succ_self b)]
    · simp [Memory.read]
  · split <;> simp [Memory.read, Ne.symm hb]

/-- A read after a write: the written byte at its address, the old byte elsewhere. -/
theorem read_write {a b : Nat} {v : Byte} {m : Memory} (hm : m.wf) :
    (m.write a v).read b = if b = a then v else m.read b := by
  induction m with
  | nil => exact read_consByte (by simp [Memory.above])
  | cons p m ih =>
    obtain ⟨c, w⟩ := p
    obtain ⟨-, hab, hm'⟩ := wf_cons.mp hm
    simp only [Memory.write]
    split
    · rename_i hlt
      refine read_consByte ?_
      intro q hq
      rcases List.mem_cons.mp hq with rfl | hq
      · exact hlt
      · exact le_trans (by omega) (hab q hq)
    · split
      · rename_i heq
        subst heq
        rw [read_consByte hab]
        by_cases hb : b = a
        · simp [hb]
        · simp [Memory.read, hb, Ne.symm hb]
      · rename_i hne
        simp only [Memory.read, ih hm']
        by_cases hb : c = b
        · subst hb; simp [Ne.symm hne]
        · simp [hb]

/-- A read after consecutive writes. -/
theorem read_writeBytes {vs : List Byte} {a b : Nat} {m : Memory} (ha : a + vs.length ≤ Config.memSize) (hm : m.wf) :
    (m.writeBytes a vs).read b = if a ≤ b then (vs[b - a]?).getD (m.read b) else m.read b := by
  induction vs generalizing a m with
  | nil => simp [Memory.writeBytes]
  | cons v vs ih =>
    simp only [List.length_cons] at ha
    rw [Memory.writeBytes, ih (by omega) (wf_write (by omega) hm), read_write hm]
    rcases lt_trichotomy b a with hb | rfl | hb
    · simp [show ¬ a + 1 ≤ b by omega, show ¬ a ≤ b by omega, show b ≠ a by omega]
    · simp
    · obtain ⟨k, rfl⟩ : ∃ k, b = a + 1 + k := ⟨b - (a + 1), by omega⟩
      simp [show a ≤ a + 1 + k by omega, show a + 1 + k - a = k + 1 by omega, show a + 1 + k ≠ a by omega]

/-- What a fetch window holds. -/
theorem getElem?_bytesFrom (m : Memory) (a n k : Nat) :
    (bytesFrom m a n)[k]? = if k < n then some (m.read (a + k)) else none := by
  induction n generalizing a k with
  | zero => simp [bytesFrom]
  | succ n ih =>
    cases k with
    | zero => simp [bytesFrom]
    | succ k => simp [bytesFrom, ih, Nat.add_assoc, Nat.add_comm 1 k]

end Sys2Proof.Machine
end

