-- ==== Sys2Proof/Laws/Boot.lean ====
section
/-! SUPPORT. What the host's operations and the catalog load answer, said once. -/

namespace Sys2Proof.Machine

/-- A load of an image that succeeded, as one record. -/
theorem loadProgram_ok {s t : State} {img : List Byte} (h : s.loadProgram img = .ok t) :
    Config.loadBase + img.length ≤ Config.memSize ∧ t = { s with mem := s.mem.writeBytes Config.loadBase img } := by
  unfold State.loadProgram at h
  split at h
  · cases h
  · cases h
    exact ⟨by omega, rfl⟩

/-- A required field is either there, or makes the record malformed. -/
theorem required_cases {α : Type} (f : FieldValue α) (key name : String) :
    (∃ a, f = .present a ∧ f.required key name = .ok a) ∨
    ((∀ a, f ≠ .present a) ∧ f.required key name = .error (.malformedCatalog key name)) := by
  cases f <;> simp [FieldValue.required]

/-- An integer is either in range, or makes the record malformed. -/
theorem natAtLeast_cases (low : Nat) (key name : String) (v : Int) :
    (∃ n : Nat, v = n ∧ low ≤ n ∧ natAtLeast low key name v = .ok n) ∨
    (v < low ∧ natAtLeast low key name v = .error (.malformedCatalog key name)) := by
  unfold natAtLeast
  by_cases h : (low : Int) ≤ v
  · exact .inl ⟨v.toNat, by omega, by omega, if_pos h⟩
  · exact .inr ⟨by omega, if_neg h⟩

/-- What a flag-effect symbol is read as is what it stands for. -/
theorem symbolMeans_effectOfSymbol (symbol : String) : SymbolMeans symbol (effectOfSymbol symbol) := by
  unfold effectOfSymbol
  split_ifs with h1 h0 hd
  · exact h1
  · exact h0
  · exact hd
  · exact ⟨h1, h0, hd⟩

/-- The flag effects load, or one of them is malformed. -/
theorem loadFlags_cases (key : String) (raw : RawFlags) :
    (∃ d, loadFlags key raw = .ok d ∧ FlagsSay raw d ∧ ∀ field, ¬ MalformedFlags raw field) ∨
    (∃ field, loadFlags key raw = .error (.malformedCatalog key field) ∧ MalformedFlags raw field) := by
  unfold loadFlags
  rcases required_cases raw.z key "flags.Z" with ⟨z, hz, ez⟩ | ⟨hz, ez⟩ <;> simp only [ez, bind, Except.bind]
  swap; · exact .inr ⟨_, rfl, .z hz⟩
  rcases required_cases raw.n key "flags.N" with ⟨n, hn, en⟩ | ⟨hn, en⟩ <;> simp only [en]
  swap; · exact .inr ⟨_, rfl, .n hn⟩
  rcases required_cases raw.h key "flags.H" with ⟨h, hh, eh⟩ | ⟨hh, eh⟩ <;> simp only [eh]
  swap; · exact .inr ⟨_, rfl, .h hh⟩
  rcases required_cases raw.c key "flags.C" with ⟨c, hc, ec⟩ | ⟨hc, ec⟩ <;> simp only [ec]
  swap; · exact .inr ⟨_, rfl, .c hc⟩
  refine .inl ⟨_, rfl, ⟨⟨z, hz, symbolMeans_effectOfSymbol z⟩, ⟨n, hn, symbolMeans_effectOfSymbol n⟩,
    ⟨h, hh, symbolMeans_effectOfSymbol h⟩, ⟨c, hc, symbolMeans_effectOfSymbol c⟩⟩, ?_⟩
  rintro field (h' | h' | h' | h')
  · exact h' _ hz
  · exact h' _ hn
  · exact h' _ hh
  · exact h' _ hc

/-- Cycle counts load, or are no list of one or two natural numbers. -/
theorem loadCycles_cases (key : String) (cs : List Int) :
    (∃ d, loadCycles key cs = .ok d ∧ cs = (cycleCounts d).map (fun n => (n : Int)) ∧ ¬ malformedCycles cs) ∨
    (loadCycles key cs = .error (.malformedCatalog key "cycles") ∧ malformedCycles cs) := by
  rcases cs with _ | ⟨a, _ | ⟨b, _ | ⟨c, cs⟩⟩⟩
  · exact .inr ⟨rfl, .inl ⟨by simp, by simp⟩⟩
  · simp only [loadCycles, bind, Except.bind]
    rcases natAtLeast_cases 0 key "cycles" a with ⟨n, rfl, -, e⟩ | ⟨h, e⟩ <;> simp only [e]
    · exact .inl ⟨.one n, rfl, rfl, by simp [malformedCycles]⟩
    · exact .inr ⟨trivial, .inr ⟨a, by simp, h⟩⟩
  · simp only [loadCycles, bind, Except.bind]
    rcases natAtLeast_cases 0 key "cycles" a with ⟨n, rfl, -, e⟩ | ⟨h, e⟩ <;> simp only [e]
    swap; · exact .inr ⟨trivial, .inr ⟨a, by simp, h⟩⟩
    rcases natAtLeast_cases 0 key "cycles" b with ⟨m, rfl, -, e'⟩ | ⟨h, e'⟩ <;> simp only [e']
    · exact .inl ⟨.two n m, rfl, rfl, by simp [malformedCycles]⟩
    · exact .inr ⟨trivial, .inr ⟨b, by simp, h⟩⟩
  · exact .inr ⟨rfl, .inl ⟨by simp, by simp⟩⟩

/-- An operand record loads, or a field of it is malformed. -/
theorem loadOperand_cases (key : String) (raw : RawOperand) :
    (∃ d, loadOperand key raw = .ok d ∧ OperandSays raw d ∧ ∀ field, ¬ MalformedOperand raw field) ∨
    (∃ field, loadOperand key raw = .error (.malformedCatalog key field) ∧ MalformedOperand raw field) := by
  unfold loadOperand
  rcases required_cases raw.name key "operands.name" with ⟨x, hx, ex⟩ | ⟨hx, ex⟩ <;> simp only [ex, bind, Except.bind]
  swap; · exact .inr ⟨_, rfl, .name hx⟩
  rcases required_cases raw.immediate key "operands.immediate" with ⟨i, hi, ei⟩ | ⟨hi, ei⟩ <;> simp only [ei]
  swap; · exact .inr ⟨_, rfl, .immediate hi⟩
  cases hb : raw.bytes with
  | absent =>
    refine .inl ⟨_, rfl, ⟨hx, hb, hi⟩, ?_⟩
    rintro field (h | h | h | ⟨h, -⟩)
    · exact h _ hx
    · exact h _ hi
    · rw [hb] at h; cases h
    · rw [hb] at h; cases h
  | mistyped => exact .inr ⟨_, rfl, .mistyped hb⟩
  | present v =>
    simp only
    rcases natAtLeast_cases 0 key "operands.bytes" v with ⟨n, rfl, -, e⟩ | ⟨h, e⟩ <;> simp only [e]
    swap; · exact .inr ⟨_, rfl, .negative hb h⟩
    refine .inl ⟨_, rfl, ⟨hx, hb, hi⟩, ?_⟩
    rintro field (h | h | h | ⟨h, hn⟩)
    · exact h _ hx
    · exact h _ hi
    · rw [hb] at h; cases h
    · rw [hb] at h
      cases h
      omega

/-- The operand records load in order, or a field of one is malformed. -/
theorem loadOperands_cases (key : String) (os : List RawOperand) :
    (∃ ds, loadOperands key os = .ok ds ∧ List.Forall₂ OperandSays os ds ∧
      ∀ o ∈ os, ∀ field, ¬ MalformedOperand o field) ∨
    (∃ o ∈ os, ∃ field, loadOperands key os = .error (.malformedCatalog key field) ∧ MalformedOperand o field) := by
  induction os with
  | nil => exact .inl ⟨[], rfl, .nil, by simp⟩
  | cons o os ih =>
    simp only [loadOperands, bind, Except.bind]
    rcases loadOperand_cases key o with ⟨d, e, hd, hn⟩ | ⟨field, e, hm⟩ <;> simp only [e]
    swap; · exact .inr ⟨o, by simp, field, rfl, hm⟩
    rcases ih with ⟨ds, e', hds, hns⟩ | ⟨o', ho', field, e', hm⟩ <;> simp only [e']
    · exact .inl ⟨_, rfl, .cons hd hds, List.forall_mem_cons.mpr ⟨hn, hns⟩⟩
    · exact .inr ⟨o', by simp [ho'], field, rfl, hm⟩

/-- A record loads as the instruction that it says, or a field of it is malformed and is named. -/
theorem loadEntry_cases (fmt : KeyFormat) (e : RawEntry) :
    (∃ op d, loadEntry fmt e = .ok (op, d) ∧ RecordSays fmt e op d ∧ ∀ field, ¬ MalformedField fmt e field) ∨
    (∃ field, loadEntry fmt e = .error (.malformedCatalog e.key field) ∧ MalformedField fmt e field) := by
  unfold loadEntry
  cases hk : fmt.parse e.key with
  | none => exact .inr ⟨_, rfl, .key hk⟩
  | some op =>
    simp only
    rcases required_cases e.mnemonic e.key "mnemonic" with ⟨m, hm, em⟩ | ⟨hm, em⟩ <;>
      simp only [em, bind, Except.bind]
    swap; · exact .inr ⟨_, rfl, .mnemonic hm⟩
    rcases required_cases e.bytes e.key "bytes" with ⟨b, hb, eb⟩ | ⟨hb, eb⟩ <;> simp only [eb]
    swap; · exact .inr ⟨_, rfl, .bytes fun n h => absurd h (hb n)⟩
    rcases natAtLeast_cases 1 e.key "bytes" b with ⟨n, rfl, hn, en⟩ | ⟨hn, en⟩ <;> simp only [en]
    swap; · exact .inr ⟨_, rfl, .bytes fun n h => by rw [hb] at h; cases h; exact hn⟩
    rcases required_cases e.cycles e.key "cycles" with ⟨cs, hcs, ecs⟩ | ⟨hcs, ecs⟩ <;> simp only [ecs]
    swap; · exact .inr ⟨_, rfl, .cycles fun cs h => absurd h (hcs cs)⟩
    rcases loadCycles_cases e.key cs with ⟨c, ec, hc, hnc⟩ | ⟨ec, hc⟩ <;> simp only [ec]
    swap; · exact .inr ⟨_, rfl, .cycles fun cs' h => by rw [hcs] at h; cases h; exact hc⟩
    rcases required_cases e.operands e.key "operands" with ⟨os, hos, eos⟩ | ⟨hos, eos⟩ <;> simp only [eos]
    swap; · exact .inr ⟨_, rfl, .operands hos⟩
    rcases loadOperands_cases e.key os with ⟨ds, eds, hds, hnds⟩ | ⟨o, ho, field, eds, hm⟩ <;> simp only [eds]
    swap; · exact .inr ⟨field, rfl, .operand hos ho hm⟩
    rcases required_cases e.immediate e.key "immediate" with ⟨i, hi, ei⟩ | ⟨hi, ei⟩ <;> simp only [ei]
    swap; · exact .inr ⟨_, rfl, .immediate hi⟩
    rcases required_cases e.flags e.key "flags" with ⟨raw, hraw, eraw⟩ | ⟨hraw, eraw⟩ <;> simp only [eraw]
    swap; · exact .inr ⟨_, rfl, .flags hraw⟩
    rcases loadFlags_cases e.key raw with ⟨f, ef, hf, hnf⟩ | ⟨field, ef, hm⟩ <;> simp only [ef]
    swap; · exact .inr ⟨field, rfl, .flag hraw hm⟩
    refine .inl ⟨op, _, rfl, ⟨hk, hm, hb, hn, hc ▸ hcs, ⟨os, hos, hds⟩, hi, raw, hraw, hf⟩, ?_⟩
    intro field hfield
    cases hfield with
    | key h => rw [hk] at h; cases h
    | mnemonic h => exact h _ hm
    | bytes h => have := h _ hb; omega
    | cycles h => exact hnc (h _ hcs)
    | operands h => exact h _ hos
    | operand h ho hbad => rw [hos] at h; cases h; exact hnds _ ho _ hbad
    | immediate h => exact h _ hi
    | flags h => exact h _ hraw
    | flag h hbad => rw [hraw] at h; cases h; exact hnf _ hbad

/-- The records of a space load one by one, or a field of one of them is malformed and is named with its key. -/
theorem loadSpace_cases (fmt : KeyFormat) (es : List RawEntry) :
    (∃ ds, loadSpace fmt es = .ok ds ∧ List.Forall₂ (fun e d => RecordSays fmt e d.1 d.2) es ds ∧
      ∀ e ∈ es, ∀ field, ¬ MalformedField fmt e field) ∨
    (∃ e ∈ es, ∃ field, loadSpace fmt es = .error (.malformedCatalog e.key field) ∧ MalformedField fmt e field) := by
  induction es with
  | nil => exact .inl ⟨[], rfl, .nil, by simp⟩
  | cons e es ih =>
    simp only [loadSpace, bind, Except.bind]
    rcases loadEntry_cases fmt e with ⟨op, d, h, hd, hn⟩ | ⟨field, h, hm⟩ <;> simp only [h]
    swap; · exact .inr ⟨e, by simp, field, rfl, hm⟩
    rcases ih with ⟨ds, h', hds, hns⟩ | ⟨e', he', field, h', hm⟩ <;> simp only [h']
    · exact .inl ⟨_, rfl, .cons hd hds, List.forall_mem_cons.mpr ⟨hn, hns⟩⟩
    · exact .inr ⟨e', by simp [he'], field, rfl, hm⟩

/-- What a loaded space maps an opcode to: the first of the records with that key. -/
theorem spaceOf_some {fmt : KeyFormat} {es : List RawEntry} {ds : List (Byte × Descriptor)} {op : Byte}
    {d : Descriptor} (h : List.Forall₂ (fun e d => RecordSays fmt e d.1 d.2) es ds) (hd : spaceOf ds op = some d) :
    ∃ before e after, es = before ++ e :: after ∧ (∀ e' ∈ before, fmt.parse e'.key ≠ some op) ∧
      RecordSays fmt e op d := by
  induction h with
  | nil => cases hd
  | @cons e p es ds he _ ih =>
    by_cases hp : p.1 = op
    · subst hp
      obtain rfl : p.2 = d := by simpa [spaceOf] using hd
      exact ⟨[], e, es, rfl, by simp, he⟩
    · have hs : spaceOf ds op = some d := by simpa [spaceOf, List.find?_cons, beq_eq_false_iff_ne.mpr hp] using hd
      obtain ⟨before, e', after, rfl, hb, hr⟩ := ih hs
      refine ⟨e :: before, e', after, rfl, List.forall_mem_cons.mpr ⟨fun hk => hp ?_, hb⟩, hr⟩
      exact Option.some.inj (he.key.symm.trans hk)

/-- A loaded space maps the key of each of its records. -/
theorem spaceOf_isSome {fmt : KeyFormat} {es : List RawEntry} {ds : List (Byte × Descriptor)}
    (h : List.Forall₂ (fun e d => RecordSays fmt e d.1 d.2) es ds) :
    ∀ e ∈ es, ∃ op, fmt.parse e.key = some op ∧ (spaceOf ds op).isSome := by
  induction h with
  | nil => simp
  | @cons e p es ds he _ ih =>
    refine List.forall_mem_cons.mpr ⟨⟨p.1, he.key, by simp [spaceOf]⟩, fun e' he' => ?_⟩
    obtain ⟨op, hk, hs⟩ := ih e' he'
    refine ⟨op, hk, ?_⟩
    by_cases hp : p.1 = op
    · simp [spaceOf, hp]
    · simpa [spaceOf, List.find?_cons, beq_eq_false_iff_ne.mpr hp] using hs

/-- A catalog load that succeeded had both collections, and loaded both spaces. -/
theorem loadCatalog_ok {fmt : KeyFormat} {table : RawTable} {cat : Catalog}
    (h : loadCatalog fmt (.table table) = .ok cat) :
    ∃ u c du dc, table.unprefixed = .present u ∧ table.cbprefixed = .present c ∧ loadSpace fmt u = .ok du ∧
      loadSpace fmt c = .ok dc ∧ cat = { unprefixed := spaceOf du, cbprefixed := spaceOf dc } := by
  simp only [loadCatalog, bind, Except.bind] at h
  rcases required_cases table.unprefixed "" "unprefixed" with ⟨u, hu, hu'⟩ | ⟨-, hu'⟩ <;> simp only [hu'] at h
  swap; · cases h
  split at h; · cases h
  rcases required_cases table.cbprefixed "" "cbprefixed" with ⟨c, hc, hc'⟩ | ⟨-, hc'⟩ <;> simp only [hc'] at h
  swap; · cases h
  split at h; · cases h
  cases h
  exact ⟨u, c, _, _, hu, hc, ‹_›, ‹_›, rfl⟩

end Sys2Proof.Machine
end

