-- ==== Sys2Proof/Laws/Decode.lean ====
section
/-! SUPPORT. What the decoder's tables and its reading of operand bytes do, said once. -/

namespace Sys2Proof

/-! ## Operand bytes -/

/-- An absent byte is followed by absent bytes only, and taking bytes from nothing gives just those. -/
theorem takeInline_absent {bs : List (Option Byte)} (h : bs.all (fun b => b.isNone) = true) :
    bs.reduceOption = [] ∧ takeInline bs.length [] = (bs, []) := by
  induction bs with
  | nil => exact ⟨rfl, rfl⟩
  | cons b bs ih =>
    cases b with
    | some _ => simp at h
    | none => simp [takeInline, ih (by simpa using h)]

/-- The bytes taken, followed by the bytes left, are the input; absent ones come last, and only where nothing is left. -/
theorem takeInline_append (n : Nat) (bs : List Byte) :
    (takeInline n bs).1.reduceOption ++ (takeInline n bs).2 = bs ∧ presentFirst (takeInline n bs).1 = true ∧
    ((takeInline n bs).1.all (fun b => b.isSome) = true ∨ (takeInline n bs).2 = []) := by
  induction n generalizing bs with
  | zero => simp [takeInline, presentFirst]
  | succ n ih =>
    cases bs with
    | nil =>
      have hn : (takeInline n []).1.all (fun b => b.isNone) = true := by
        clear ih
        induction n with
        | zero => rfl
        | succ n ih => simpa [takeInline] using ih
      have h := (ih []).1
      simp only [List.append_eq_nil_iff] at h
      simp [takeInline, presentFirst, hn, h]
    | cons b bs =>
      have h := ih bs
      simp [takeInline, presentFirst, List.reduceOption] at h ⊢
      tauto

/-- Taking back the operand bytes of an encoding. -/
theorem takeInline_reduceOption {inline : List (Option Byte)} {rest : List Byte} (h : presentFirst inline = true)
    (hc : inline.all (fun b => b.isSome) = true ∨ rest = []) :
    takeInline inline.length (inline.reduceOption ++ rest) = (inline, rest) := by
  induction inline with
  | nil => rfl
  | cons b bs ih =>
    cases b with
    | some b => simp [takeInline, ih h (by simpa using hc)]
    | none =>
      rcases hc with hc | rfl
      · simp at hc
      · have hn := takeInline_absent (bs := bs) h
        simp [takeInline, hn]

/-! ## The tables -/

/-- How many operand bytes a cell of the decoding grid takes. -/
def Row.size : Row → Nat
  | .len1 _ => 0
  | .len2 _ => 1
  | .len3 _ => 2

/-- A cell holds an unprefixed row of REF_CAT with the opcode `op`, and puts the operand bytes in order. -/
def Row.Matches (op : Byte) : Row → Prop
  | .len1 i => i.prefixed = false ∧ i.opcode = op ∧ i.inline = [] ∧ i.isReference = true
  | .len2 f => ∀ b, (f b).prefixed = false ∧ (f b).opcode = op ∧ (f b).inline = [b] ∧ (f b).isReference = true
  | .len3 f => ∀ b c,
      (f b c).prefixed = false ∧ (f b c).opcode = op ∧ (f b c).inline = [b, c] ∧ (f b c).isReference = true

/-- Every cell but that of the escape is the row of its own opcode. -/
theorem rowsUnprefixed_matches (op : Byte) (h : op ≠ Config.escapeByte) :
    ∃ row, rowsUnprefixed[op.toNat]? = some row ∧ row.Matches op := by
  have key : ∀ n : Fin 256, n ≠ 0xCB → ∃ row, rowsUnprefixed[n.val]? = some row ∧ row.Matches (BitVec.ofNat 8 n.val) := by
    intro n hn
    fin_cases n <;>
      first
        | exact absurd rfl hn
        | (refine ⟨_, rfl, ?_⟩
           first
             | exact ⟨rfl, rfl, rfl, rfl⟩
             | exact fun b => ⟨rfl, rfl, rfl, rfl⟩
             | exact fun b c => ⟨rfl, rfl, rfl, rfl⟩)
  have := key ⟨op.toNat, op.isLt⟩ (fun e => h (BitVec.eq_of_toNat_eq (congrArg Fin.val e)))
  simpa only [BitVec.ofNat_toNat, BitVec.setWidth_eq] using this

/-- What a matching cell reads. -/
theorem Row.Matches.read {op : Byte} {row : Row} (h : row.Matches op) (bs : List Byte) :
    (row.read bs).1.prefixed = false ∧ (row.read bs).1.opcode = op ∧
    (row.read bs).1.inline = (takeInline row.size bs).1 ∧ (row.read bs).1.isReference = true := by
  cases row with
  | len1 i => exact h
  | len2 f => cases bs <;> exact h _
  | len3 f => rcases bs with _ | ⟨c, _ | ⟨d, bs⟩⟩ <;> exact h _ _

/-- Every CB opcode is that of the row it decodes to, which has no operand bytes. -/
theorem decodeCb_matches : ∀ op : Byte,
    (decodeCb op).prefixed = true ∧ (decodeCb op).opcode = op ∧ (decodeCb op).inline = [] ∧
    (decodeCb op).format = .cb2 := by
  decide

end Sys2Proof
end

