-- ==== Sys2Proof/Laws/State.lean ====
section
/-! SUPPORT. One lemma per field per update of the state, so that no proof unfolds a record update. -/

namespace Sys2Proof.Machine

/-! ## halt -/

@[simp] theorem halt_pc (s : State) (r : HaltReason) : (s.halt r).pc = s.pc := rfl
@[simp] theorem halt_regs (s : State) (r : HaltReason) : (s.halt r).regs = s.regs := rfl
@[simp] theorem halt_sp (s : State) (r : HaltReason) : (s.halt r).sp = s.sp := rfl
@[simp] theorem halt_mem (s : State) (r : HaltReason) : (s.halt r).mem = s.mem := rfl
@[simp] theorem halt_run (s : State) (r : HaltReason) : (s.halt r).run = .halted r := rfl

/-! ## advance -/

@[simp] theorem advance_pc (s : State) (n : Nat) : (s.advance n).pc = writeBackPc (s.pc.toNat + n) := by
  by_cases h : Config.pcLimit ≤ s.pc.toNat + n <;> simp [State.advance, h, -not_le]
@[simp] theorem advance_regs (s : State) (n : Nat) : (s.advance n).regs = s.regs := by
  by_cases h : Config.pcLimit ≤ s.pc.toNat + n <;> simp [State.advance, h, -not_le]
@[simp] theorem advance_sp (s : State) (n : Nat) : (s.advance n).sp = s.sp := by
  by_cases h : Config.pcLimit ≤ s.pc.toNat + n <;> simp [State.advance, h, -not_le]
@[simp] theorem advance_mem (s : State) (n : Nat) : (s.advance n).mem = s.mem := by
  by_cases h : Config.pcLimit ≤ s.pc.toNat + n <;> simp [State.advance, h, -not_le]
theorem advance_run (s : State) (n : Nat) :
    (s.advance n).run = if Config.pcLimit ≤ s.pc.toNat + n then .halted .pcOverflow else s.run := by
  by_cases h : Config.pcLimit ≤ s.pc.toNat + n <;> simp [State.advance, h, -not_le]

/-- All that `advance` does, as one record. -/
theorem advance_eq (s : State) (n : Nat) :
    s.advance n = { s with
      pc := writeBackPc (s.pc.toNat + n)
      run := if Config.pcLimit ≤ s.pc.toNat + n then .halted .pcOverflow else s.run } := by
  by_cases h : Config.pcLimit ≤ s.pc.toNat + n <;> simp [State.advance, h, State.halt]

/-! ## the accessors -/

@[simp] theorem write8_pc (s : State) (r : Reg8) (v : Byte) : (s.write8 r v).pc = s.pc := rfl
@[simp] theorem write8_regs (s : State) (r : Reg8) (v : Byte) : (s.write8 r v).regs = s.regs.write8 r v := rfl
@[simp] theorem write8_sp (s : State) (r : Reg8) (v : Byte) : (s.write8 r v).sp = s.sp := rfl
@[simp] theorem write8_mem (s : State) (r : Reg8) (v : Byte) : (s.write8 r v).mem = s.mem := rfl
@[simp] theorem write8_run (s : State) (r : Reg8) (v : Byte) : (s.write8 r v).run = s.run := rfl

@[simp] theorem write16_pc (s : State) (p : RegPair) (v : Word) : (s.write16 p v).pc = s.pc := rfl
@[simp] theorem write16_sp (s : State) (p : RegPair) (v : Word) : (s.write16 p v).sp = s.sp := rfl
@[simp] theorem write16_mem (s : State) (p : RegPair) (v : Word) : (s.write16 p v).mem = s.mem := rfl
@[simp] theorem write16_run (s : State) (p : RegPair) (v : Word) : (s.write16 p v).run = s.run := rfl

@[simp] theorem writeSp_pc (s : State) (v : Word) : (s.writeSp v).pc = s.pc := rfl
@[simp] theorem writeSp_regs (s : State) (v : Word) : (s.writeSp v).regs = s.regs := rfl
@[simp] theorem writeSp_sp (s : State) (v : Word) : (s.writeSp v).sp = v := rfl
@[simp] theorem writeSp_mem (s : State) (v : Word) : (s.writeSp v).mem = s.mem := rfl
@[simp] theorem writeSp_run (s : State) (v : Word) : (s.writeSp v).run = s.run := rfl

@[simp] theorem setFlag_pc (s : State) (f : Flag) : (s.setFlag f).pc = s.pc := rfl
@[simp] theorem setFlag_sp (s : State) (f : Flag) : (s.setFlag f).sp = s.sp := rfl
@[simp] theorem setFlag_mem (s : State) (f : Flag) : (s.setFlag f).mem = s.mem := rfl
@[simp] theorem setFlag_run (s : State) (f : Flag) : (s.setFlag f).run = s.run := rfl

@[simp] theorem clearFlag_pc (s : State) (f : Flag) : (s.clearFlag f).pc = s.pc := rfl
@[simp] theorem clearFlag_sp (s : State) (f : Flag) : (s.clearFlag f).sp = s.sp := rfl
@[simp] theorem clearFlag_mem (s : State) (f : Flag) : (s.clearFlag f).mem = s.mem := rfl
@[simp] theorem clearFlag_run (s : State) (f : Flag) : (s.clearFlag f).run = s.run := rfl

end Sys2Proof.Machine
end

