-- ==== Sys2Proof/Laws/Exec.lean ====
section
/-! SUPPORT. Everything an instruction and a step can do, said once: proofs cite these and do not unfold `exec`. -/

namespace Sys2Proof.Machine

/-- A mapped row moves the pc past the instruction and does nothing else. -/
@[simp] theorem skip_eq (k inline : Nat) (s : State) : skip k inline s = .next (s.advance (k + inline)) := rfl

/-- The halt UnknownOpcode, as one record. -/
theorem haltUnknownOpcode_eq (prefixed : Bool) (op : Byte) (s : State) :
    haltUnknownOpcode prefixed op s = .next { s with
      pc := writeBackPc (s.pc.toNat + opcodeLength prefixed)
      run := .halted (.unknownOpcode prefixed op s.pc) } := rfl

theorem toNat_writeBackPc (p : Nat) : (writeBackPc p).toNat = min p 0xFFFF := by
  simp only [writeBackPc, Config.pcLimit, BitVec.toNat_ofNat]
  omega

theorem opcodeLength_pos (prefixed : Bool) : 1 ≤ opcodeLength prefixed := by
  cases prefixed <;> simp [opcodeLength]

/-- Every row of REF_CAT advances the pc by its length. -/
theorem exec_reference (i : Instr) (s : State) (h : i.isReference = true) :
    exec i s = .next (s.advance i.length) := by
  cases i <;> first | rfl | cases h

/-- What the escape answers, by its second byte and the catalog. -/
theorem execEscapeWith_cases (cat : Catalog) (s : State) :
    (execEscapeWith cat s = .fault (.fetchOutsideMemory (s.pc.toNat + 1)) ∧ s.memRead (s.pc.toNat + 1) = none) ∨
    (∃ op, s.memRead (s.pc.toNat + 1) = some op ∧ cat.lookup true op = none ∧
      execEscapeWith cat s = haltUnknownOpcode true op s) ∨
    (∃ op d, s.memRead (s.pc.toNat + 1) = some op ∧ cat.lookup true op = some d ∧
      execEscapeWith cat s = .next (s.advance (2 + d.inlineLength))) := by
  unfold execEscapeWith
  cases hm : s.memRead (s.pc.toNat + 1) with
  | none => simp
  | some op => cases hl : cat.lookup true op <;> simp [hl]

/-- All that an instruction can answer: it advances the pc by at least 1, or halts with UnknownOpcode, or (the escape at
the top of memory only) stops because its second byte does not exist. -/
theorem exec_cases (i : Instr) (s : State) :
    (∃ n, 1 ≤ n ∧ exec i s = .next (s.advance n)) ∨
    (∃ prefixed op, exec i s = haltUnknownOpcode prefixed op s) ∨
    (i = .escape ∧ s.memRead (s.pc.toNat + 1) = none ∧
      exec i s = .fault (.fetchOutsideMemory (s.pc.toNat + 1))) := by
  by_cases h : i.isReference = true
  · exact .inl ⟨i.length, by have := opcodeLength_pos i.prefixed; simp [Instr.length]; omega, exec_reference i s h⟩
  cases i with
  | unprefixedMapped op d inline => exact .inl ⟨1 + d.inlineLength, by omega, rfl⟩
  | cbMapped op d inline => exact .inl ⟨2 + d.inlineLength, by omega, rfl⟩
  | unprefixedUnknown op => exact .inr (.inl ⟨false, op, rfl⟩)
  | cbUnknown op => exact .inr (.inl ⟨true, op, rfl⟩)
  | escape =>
    rcases execEscapeWith_cases refCat s with ⟨h1, h2⟩ | ⟨op, -, -, h1⟩ | ⟨op, d, -, -, h1⟩
    · exact .inr (.inr ⟨rfl, h2, h1⟩)
    · exact .inr (.inl ⟨true, op, h1⟩)
    · exact .inl ⟨2 + d.inlineLength, by omega, h1⟩
  | _ => exact absurd rfl h

/-- What an instruction leaves when it answers a next state: the pc past at least one byte, `run` unchanged or halted,
and every other part of the state as it was. -/
theorem exec_next {i : Instr} {s t : State} (h : exec i s = .next t) :
    t.regs = s.regs ∧ t.sp = s.sp ∧ t.mem = s.mem ∧
    ∃ n, 1 ≤ n ∧ t.pc = writeBackPc (s.pc.toNat + n) ∧
      ((t.run = s.run ∧ s.pc.toNat + n < 0xFFFF) ∨ (t.run = .halted .pcOverflow ∧ 0xFFFF ≤ s.pc.toNat + n) ∨
        ∃ prefixed op, t.run = .halted (.unknownOpcode prefixed op s.pc)) := by
  rcases exec_cases i s with ⟨n, hn, he⟩ | ⟨prefixed, op, he⟩ | ⟨-, -, he⟩
  · rw [he] at h
    cases h
    refine ⟨by simp, by simp, by simp, n, hn, by simp, ?_⟩
    rw [advance_run]
    by_cases hp : 0xFFFF ≤ s.pc.toNat + n
    · exact .inr (.inl ⟨if_pos hp, hp⟩)
    · exact .inl ⟨if_neg hp, by omega⟩
  · rw [he, haltUnknownOpcode_eq] at h
    cases h
    exact ⟨rfl, rfl, rfl, _, opcodeLength_pos prefixed, rfl, .inr (.inr ⟨prefixed, op, rfl⟩)⟩
  · rw [he] at h
    cases h

/-! ## The step -/

theorem stepWith_halted {cat : Catalog} {s : State} {r : HaltReason} (h : s.run = .halted r) :
    stepWith cat s = .fault (.runEnded r) := by
  simp [stepWith, h]

theorem stepWith_running {cat : Catalog} {s : State} (h : s.run = .running) :
    stepWith cat s = runDecoded s (decodeWith cat s.fetchWindow) := by
  simp [stepWith, h]

theorem step_halted {s : State} {r : HaltReason} (h : s.run = .halted r) : step s = .fault (.runEnded r) := by
  simp [step, h]

theorem step_running {s : State} (h : s.run = .running) : step s = runDecoded s (decode s.fetchWindow) := by
  simp [step, h]

/-- A step that answers a next state ran some instruction from Running. -/
theorem stepWith_next {cat : Catalog} {s t : State} (h : stepWith cat s = .next t) :
    s.run = .running ∧ ∃ i rest, decodeWith cat s.fetchWindow = .ok (i, rest) ∧ exec i s = .next t := by
  cases hr : s.run with
  | halted r => rw [stepWith_halted hr] at h; cases h
  | running =>
    rw [stepWith_running hr] at h
    refine ⟨rfl, ?_⟩
    cases hd : decodeWith cat s.fetchWindow with
    | error e => cases e; rw [hd] at h; cases h
    | ok p => rw [hd] at h; exact ⟨p.1, p.2, rfl, h⟩

/-- The window a step fetches from starts with the byte at the pc. -/
theorem fetchWindow_eq (s : State) :
    s.fetchWindow = s.mem.read s.pc.toNat :: bytesFrom s.mem (s.pc.toNat + 1) (0xFFFF - s.pc.toNat) := by
  have h : Config.memSize - s.pc.toNat = (0xFFFF - s.pc.toNat) + 1 := by
    have := s.pc.isLt
    simp only [Config.memSize]
    omega
  rw [State.fetchWindow, h, bytesFrom]

/-- Below the top of memory the window holds a second byte. -/
theorem fetchWindow_eq_two (s : State) (h : s.pc.toNat ≤ 0xFFFE) :
    s.fetchWindow = s.mem.read s.pc.toNat :: s.mem.read (s.pc.toNat + 1) ::
      bytesFrom s.mem (s.pc.toNat + 2) (0xFFFE - s.pc.toNat) := by
  rw [fetchWindow_eq, show 0xFFFF - s.pc.toNat = (0xFFFE - s.pc.toNat) + 1 by omega, bytesFrom]

theorem memRead_pc (s : State) : s.memRead s.pc.toNat = some (s.mem.read s.pc.toNat) := by
  have := s.pc.isLt
  simp only [State.memRead, Config.memSize]
  rw [if_pos (by omega)]

theorem memRead_pc_succ (s : State) (h : s.pc.toNat ≤ 0xFFFE) :
    s.memRead (s.pc.toNat + 1) = some (s.mem.read (s.pc.toNat + 1)) := by
  simp only [State.memRead, Config.memSize]
  rw [if_pos (by omega)]

/-! ## Operand bytes -/

@[simp] theorem length_takeInline (n : Nat) (bs : List Byte) : (takeInline n bs).1.length = n := by
  induction n generalizing bs with
  | zero => rfl
  | succ n ih => cases bs <;> simp [takeInline, ih]

/-- The operand bytes taken from the bytes of memory are the memory bytes, absent past 0xFFFF. -/
theorem takeInline_bytesFrom (s : State) (n a k : Nat) (h : k = Config.memSize - a) :
    (takeInline n (bytesFrom s.mem a k)).1 = s.operandBytes a n := by
  induction n generalizing a k with
  | zero => rfl
  | succ n ih =>
    cases k with
    | zero =>
      have hn : s.memRead a = none := by simp only [State.memRead]; rw [if_neg (by omega)]
      have hi := ih (a + 1) 0 (by omega)
      simp only [bytesFrom] at hi
      simp [bytesFrom, takeInline, State.operandBytes, hn, hi]
    | succ k =>
      have hs : s.memRead a = some (s.mem.read a) := by simp only [State.memRead]; rw [if_pos (by omega)]
      simp [bytesFrom, takeInline, State.operandBytes, hs, ih (a + 1) k (by omega)]

end Sys2Proof.Machine
end

