-- ==== Sys2Proof/Laws/PerInstr.lean ====
section
/-! SUPPORT. Statements about each instruction as syntax. `EscapeByte`: the encoding of a well-formed instruction starts
with the escape byte exactly for the CB rows and the escape itself (30_encoding.md R71). -/

namespace Sys2Proof.Laws.EscapeByte

/-- The first byte alone tells the CB rows and the escape from the unprefixed rows. -/
def Statement (i : Instr) : Prop :=
  i.wf = true → ((encode i).head? = some Config.escapeByte ↔ i.prefixed = true ∨ i = .escape)

theorem of_prefixed {i : Instr} (h : i.prefixed = true) : Statement i := by
  intro _
  simp [encode, Instr.opcodeBytes, h]

theorem of_unprefixed {i : Instr} (h : i.prefixed = false) (hi : i ≠ .escape) (ho : i.opcode ≠ Config.escapeByte) :
    Statement i := by
  intro _
  simp [encode, Instr.opcodeBytes, h, hi, ho]

theorem unprefixedMapped (op : Byte) (d : Descriptor) (inline : List (Option Byte)) : Statement (.unprefixedMapped op d inline) := by
  intro h
  exact of_unprefixed rfl nofun (by simp_all [Instr.wf, Instr.opcode]) h
theorem unprefixedUnknown (op : Byte) : Statement (.unprefixedUnknown op) := by
  intro h
  exact of_unprefixed rfl nofun (by simp_all [Instr.wf, Instr.opcode]) h
theorem escape : Statement .escape := fun _ => by simp [encode, Instr.opcodeBytes, Instr.prefixed, Instr.format, Instr.opcode, Config.escapeByte]
theorem cbMapped (op : Byte) (d : Descriptor) (inline : List (Option Byte)) : Statement (.cbMapped op d inline) := of_prefixed rfl
theorem cbUnknown (op : Byte) : Statement (.cbUnknown op) := of_prefixed rfl
theorem ldR16N16 (r : Operand16) (b0 : Option Byte) (b1 : Option Byte) : Statement (.ldR16N16 r b0 b1) :=
  of_unprefixed rfl nofun (by show (0x01 + r.row : Byte) ≠ _; cases r <;> decide)
theorem ldMemA (p : Indirect) : Statement (.ldMemA p) :=
  of_unprefixed rfl nofun (by show (0x02 + p.row : Byte) ≠ _; cases p <;> decide)
theorem ldAMem (p : Indirect) : Statement (.ldAMem p) :=
  of_unprefixed rfl nofun (by show (0x0A + p.row : Byte) ≠ _; cases p <;> decide)
theorem ldA16Sp (b0 : Option Byte) (b1 : Option Byte) : Statement (.ldA16Sp b0 b1) :=
  of_unprefixed rfl nofun (by show (0x08 : Byte) ≠ _; decide)
theorem ldR8N8 (r : Operand8) (n8 : Option Byte) : Statement (.ldR8N8 r n8) :=
  of_unprefixed rfl nofun (by show (0x06 + 8 * r.code : Byte) ≠ _; cases r <;> decide)
theorem ldR8R8 (dst : Operand8) (src : Operand8) : Statement (.ldR8R8 dst src) :=
  of_unprefixed rfl nofun (by show (0x40 + 8 * dst.code + src.code : Byte) ≠ _; cases dst <;> cases src <;> decide)
theorem ldA16A (b0 : Option Byte) (b1 : Option Byte) : Statement (.ldA16A b0 b1) :=
  of_unprefixed rfl nofun (by show (0xEA : Byte) ≠ _; decide)
theorem ldAA16 (b0 : Option Byte) (b1 : Option Byte) : Statement (.ldAA16 b0 b1) :=
  of_unprefixed rfl nofun (by show (0xFA : Byte) ≠ _; decide)
theorem ldHlSpE8 (e8 : Option Byte) : Statement (.ldHlSpE8 e8) :=
  of_unprefixed rfl nofun (by show (0xF8 : Byte) ≠ _; decide)
theorem ldSpHl : Statement .ldSpHl :=
  of_unprefixed rfl nofun (by show (0xF9 : Byte) ≠ _; decide)
theorem ldhA8A (a8 : Option Byte) : Statement (.ldhA8A a8) :=
  of_unprefixed rfl nofun (by show (0xE0 : Byte) ≠ _; decide)
theorem ldhAA8 (a8 : Option Byte) : Statement (.ldhAA8 a8) :=
  of_unprefixed rfl nofun (by show (0xF0 : Byte) ≠ _; decide)
theorem ldhCA : Statement .ldhCA :=
  of_unprefixed rfl nofun (by show (0xE2 : Byte) ≠ _; decide)
theorem ldhAC : Statement .ldhAC :=
  of_unprefixed rfl nofun (by show (0xF2 : Byte) ≠ _; decide)
theorem pushPair (r : StackOperand) : Statement (.pushPair r) :=
  of_unprefixed rfl nofun (by show (0xC5 + r.row : Byte) ≠ _; cases r <;> decide)
theorem popPair (r : StackOperand) : Statement (.popPair r) :=
  of_unprefixed rfl nofun (by show (0xC1 + r.row : Byte) ≠ _; cases r <;> decide)
theorem incR16 (r : Operand16) : Statement (.incR16 r) :=
  of_unprefixed rfl nofun (by show (0x03 + r.row : Byte) ≠ _; cases r <;> decide)
theorem decR16 (r : Operand16) : Statement (.decR16 r) :=
  of_unprefixed rfl nofun (by show (0x0B + r.row : Byte) ≠ _; cases r <;> decide)
theorem incR8 (r : Operand8) : Statement (.incR8 r) :=
  of_unprefixed rfl nofun (by show (0x04 + 8 * r.code : Byte) ≠ _; cases r <;> decide)
theorem decR8 (r : Operand8) : Statement (.decR8 r) :=
  of_unprefixed rfl nofun (by show (0x05 + 8 * r.code : Byte) ≠ _; cases r <;> decide)
theorem addHlR16 (r : Operand16) : Statement (.addHlR16 r) :=
  of_unprefixed rfl nofun (by show (0x09 + r.row : Byte) ≠ _; cases r <;> decide)
theorem addSpE8 (e8 : Option Byte) : Statement (.addSpE8 e8) :=
  of_unprefixed rfl nofun (by show (0xE8 : Byte) ≠ _; decide)
theorem addR8 (r : Operand8) : Statement (.addR8 r) :=
  of_unprefixed rfl nofun (by show (0x80 + r.code : Byte) ≠ _; cases r <;> decide)
theorem adcR8 (r : Operand8) : Statement (.adcR8 r) :=
  of_unprefixed rfl nofun (by show (0x88 + r.code : Byte) ≠ _; cases r <;> decide)
theorem subR8 (r : Operand8) : Statement (.subR8 r) :=
  of_unprefixed rfl nofun (by show (0x90 + r.code : Byte) ≠ _; cases r <;> decide)
theorem sbcR8 (r : Operand8) : Statement (.sbcR8 r) :=
  of_unprefixed rfl nofun (by show (0x98 + r.code : Byte) ≠ _; cases r <;> decide)
theorem andR8 (r : Operand8) : Statement (.andR8 r) :=
  of_unprefixed rfl nofun (by show (0xA0 + r.code : Byte) ≠ _; cases r <;> decide)
theorem xorR8 (r : Operand8) : Statement (.xorR8 r) :=
  of_unprefixed rfl nofun (by show (0xA8 + r.code : Byte) ≠ _; cases r <;> decide)
theorem orR8 (r : Operand8) : Statement (.orR8 r) :=
  of_unprefixed rfl nofun (by show (0xB0 + r.code : Byte) ≠ _; cases r <;> decide)
theorem cpR8 (r : Operand8) : Statement (.cpR8 r) :=
  of_unprefixed rfl nofun (by show (0xB8 + r.code : Byte) ≠ _; cases r <;> decide)
theorem addN8 (n8 : Option Byte) : Statement (.addN8 n8) :=
  of_unprefixed rfl nofun (by show (0xC6 : Byte) ≠ _; decide)
theorem adcN8 (n8 : Option Byte) : Statement (.adcN8 n8) :=
  of_unprefixed rfl nofun (by show (0xCE : Byte) ≠ _; decide)
theorem subN8 (n8 : Option Byte) : Statement (.subN8 n8) :=
  of_unprefixed rfl nofun (by show (0xD6 : Byte) ≠ _; decide)
theorem sbcN8 (n8 : Option Byte) : Statement (.sbcN8 n8) :=
  of_unprefixed rfl nofun (by show (0xDE : Byte) ≠ _; decide)
theorem andN8 (n8 : Option Byte) : Statement (.andN8 n8) :=
  of_unprefixed rfl nofun (by show (0xE6 : Byte) ≠ _; decide)
theorem xorN8 (n8 : Option Byte) : Statement (.xorN8 n8) :=
  of_unprefixed rfl nofun (by show (0xEE : Byte) ≠ _; decide)
theorem orN8 (n8 : Option Byte) : Statement (.orN8 n8) :=
  of_unprefixed rfl nofun (by show (0xF6 : Byte) ≠ _; decide)
theorem cpN8 (n8 : Option Byte) : Statement (.cpN8 n8) :=
  of_unprefixed rfl nofun (by show (0xFE : Byte) ≠ _; decide)
theorem rlca : Statement .rlca :=
  of_unprefixed rfl nofun (by show (0x07 : Byte) ≠ _; decide)
theorem rrca : Statement .rrca :=
  of_unprefixed rfl nofun (by show (0x0F : Byte) ≠ _; decide)
theorem rla : Statement .rla :=
  of_unprefixed rfl nofun (by show (0x17 : Byte) ≠ _; decide)
theorem rra : Statement .rra :=
  of_unprefixed rfl nofun (by show (0x1F : Byte) ≠ _; decide)
theorem daa : Statement .daa :=
  of_unprefixed rfl nofun (by show (0x27 : Byte) ≠ _; decide)
theorem cpl : Statement .cpl :=
  of_unprefixed rfl nofun (by show (0x2F : Byte) ≠ _; decide)
theorem scf : Statement .scf :=
  of_unprefixed rfl nofun (by show (0x37 : Byte) ≠ _; decide)
theorem ccf : Statement .ccf :=
  of_unprefixed rfl nofun (by show (0x3F : Byte) ≠ _; decide)
theorem jrE8 (e8 : Option Byte) : Statement (.jrE8 e8) :=
  of_unprefixed rfl nofun (by show (0x18 : Byte) ≠ _; decide)
theorem jrCondE8 (cond : Cond) (e8 : Option Byte) : Statement (.jrCondE8 cond e8) :=
  of_unprefixed rfl nofun (by show (0x20 + cond.offset : Byte) ≠ _; cases cond <;> decide)
theorem jpA16 (b0 : Option Byte) (b1 : Option Byte) : Statement (.jpA16 b0 b1) :=
  of_unprefixed rfl nofun (by show (0xC3 : Byte) ≠ _; decide)
theorem jpCondA16 (cond : Cond) (b0 : Option Byte) (b1 : Option Byte) : Statement (.jpCondA16 cond b0 b1) :=
  of_unprefixed rfl nofun (by show (0xC2 + cond.offset : Byte) ≠ _; cases cond <;> decide)
theorem jpHl : Statement .jpHl :=
  of_unprefixed rfl nofun (by show (0xE9 : Byte) ≠ _; decide)
theorem callA16 (b0 : Option Byte) (b1 : Option Byte) : Statement (.callA16 b0 b1) :=
  of_unprefixed rfl nofun (by show (0xCD : Byte) ≠ _; decide)
theorem callCondA16 (cond : Cond) (b0 : Option Byte) (b1 : Option Byte) : Statement (.callCondA16 cond b0 b1) :=
  of_unprefixed rfl nofun (by show (0xC4 + cond.offset : Byte) ≠ _; cases cond <;> decide)
theorem ret : Statement .ret :=
  of_unprefixed rfl nofun (by show (0xC9 : Byte) ≠ _; decide)
theorem retCond (cond : Cond) : Statement (.retCond cond) :=
  of_unprefixed rfl nofun (by show (0xC0 + cond.offset : Byte) ≠ _; cases cond <;> decide)
theorem reti : Statement .reti :=
  of_unprefixed rfl nofun (by show (0xD9 : Byte) ≠ _; decide)
theorem rst (target : BitVec 3) : Statement (.rst target) :=
  of_unprefixed rfl nofun (by show (0xC7 + field53 target : Byte) ≠ _; revert target; decide)
theorem nop : Statement .nop :=
  of_unprefixed rfl nofun (by show (0x00 : Byte) ≠ _; decide)
theorem stopN8 (n8 : Option Byte) : Statement (.stopN8 n8) :=
  of_unprefixed rfl nofun (by show (0x10 : Byte) ≠ _; decide)
theorem halt : Statement .halt :=
  of_unprefixed rfl nofun (by show (0x76 : Byte) ≠ _; decide)
theorem di : Statement .di :=
  of_unprefixed rfl nofun (by show (0xF3 : Byte) ≠ _; decide)
theorem ei : Statement .ei :=
  of_unprefixed rfl nofun (by show (0xFB : Byte) ≠ _; decide)
theorem illegalD3 : Statement .illegalD3 :=
  of_unprefixed rfl nofun (by show (0xD3 : Byte) ≠ _; decide)
theorem illegalDB : Statement .illegalDB :=
  of_unprefixed rfl nofun (by show (0xDB : Byte) ≠ _; decide)
theorem illegalDD : Statement .illegalDD :=
  of_unprefixed rfl nofun (by show (0xDD : Byte) ≠ _; decide)
theorem illegalE3 : Statement .illegalE3 :=
  of_unprefixed rfl nofun (by show (0xE3 : Byte) ≠ _; decide)
theorem illegalE4 : Statement .illegalE4 :=
  of_unprefixed rfl nofun (by show (0xE4 : Byte) ≠ _; decide)
theorem illegalEB : Statement .illegalEB :=
  of_unprefixed rfl nofun (by show (0xEB : Byte) ≠ _; decide)
theorem illegalEC : Statement .illegalEC :=
  of_unprefixed rfl nofun (by show (0xEC : Byte) ≠ _; decide)
theorem illegalED : Statement .illegalED :=
  of_unprefixed rfl nofun (by show (0xED : Byte) ≠ _; decide)
theorem illegalF4 : Statement .illegalF4 :=
  of_unprefixed rfl nofun (by show (0xF4 : Byte) ≠ _; decide)
theorem illegalFC : Statement .illegalFC :=
  of_unprefixed rfl nofun (by show (0xFC : Byte) ≠ _; decide)
theorem illegalFD : Statement .illegalFD :=
  of_unprefixed rfl nofun (by show (0xFD : Byte) ≠ _; decide)
theorem rlc (r : Operand8) : Statement (.rlc r) := of_prefixed rfl
theorem rrc (r : Operand8) : Statement (.rrc r) := of_prefixed rfl
theorem rl (r : Operand8) : Statement (.rl r) := of_prefixed rfl
theorem rr (r : Operand8) : Statement (.rr r) := of_prefixed rfl
theorem sla (r : Operand8) : Statement (.sla r) := of_prefixed rfl
theorem sra (r : Operand8) : Statement (.sra r) := of_prefixed rfl
theorem swap (r : Operand8) : Statement (.swap r) := of_prefixed rfl
theorem srl (r : Operand8) : Statement (.srl r) := of_prefixed rfl
theorem bit (n : BitVec 3) (r : Operand8) : Statement (.bit n r) := of_prefixed rfl
theorem res (n : BitVec 3) (r : Operand8) : Statement (.res n r) := of_prefixed rfl
theorem setBit (n : BitVec 3) (r : Operand8) : Statement (.setBit n r) := of_prefixed rfl

end Sys2Proof.Laws.EscapeByte
end

