-- ==== Sys2Proof/Laws/Step.lean ====
section
/-! SUPPORT. Everything a step can do under a catalog, said once, with the record it emits. -/

namespace Sys2Proof.Machine

/-- A byte that memory holds after the pc puts the pc below the top of memory. -/
theorem pc_le_of_memRead_succ {s : State} {o : Byte} (h : s.memRead (s.pc.toNat + 1) = some o) :
    s.pc.toNat ≤ 0xFFFE ∧ s.mem.read (s.pc.toNat + 1) = o := by
  unfold State.memRead at h
  split at h
  · simp only [Config.memSize, Option.some.injEq] at *
    exact ⟨by omega, h⟩
  · cases h

/-- Decoding at the pc, where the byte is not the escape. -/
theorem decodeWith_unprefixed (cat : Catalog) {s : State} {o : Byte} (hm : s.memRead s.pc.toNat = some o)
    (ho : o ≠ 0xCB) :
    decodeWith cat s.fetchWindow =
      .ok (decodeUnprefixedWith cat o (bytesFrom s.mem (s.pc.toNat + 1) (0xFFFF - s.pc.toNat))) := by
  rw [memRead_pc] at hm
  cases hm
  rw [fetchWindow_eq]
  exact if_neg ho

/-- Decoding at the pc, where the byte is the escape and another one follows. -/
theorem decodeWith_prefixed (cat : Catalog) {s : State} {o : Byte} (hm : s.memRead s.pc.toNat = some 0xCB)
    (ho : s.memRead (s.pc.toNat + 1) = some o) :
    decodeWith cat s.fetchWindow =
      .ok (decodeCbWith cat o (bytesFrom s.mem (s.pc.toNat + 2) (0xFFFE - s.pc.toNat))) := by
  obtain ⟨h1, h2⟩ := pc_le_of_memRead_succ ho
  rw [memRead_pc] at hm
  rw [fetchWindow_eq_two s h1, Option.some.inj hm, h2]
  rfl

/-- All that a step from Running can do, by the bytes at the pc and the catalog: skip a mapped row and emit its record,
halt with UnknownOpcode, or (at 0xFFFF only) stop because the escape has no second byte. -/
theorem stepWith_cases (cat : Catalog) {s : State} (hr : s.run = .running) :
    (∃ o d, s.memRead s.pc.toNat = some o ∧ o ≠ 0xCB ∧ cat.lookup false o = some d ∧
      stepWith cat s = .next (s.advance (1 + d.inlineLength)) ∧
      recordWith cat s = some (makeRecord s.pc false o d (s.operandBytes (s.pc.toNat + 1) d.inlineLength))) ∨
    (∃ o, s.memRead s.pc.toNat = some o ∧ o ≠ 0xCB ∧ cat.lookup false o = none ∧
      stepWith cat s = haltUnknownOpcode false o s ∧ recordWith cat s = none) ∨
    (∃ o d, s.memRead s.pc.toNat = some 0xCB ∧ s.memRead (s.pc.toNat + 1) = some o ∧ cat.lookup true o = some d ∧
      stepWith cat s = .next (s.advance (2 + d.inlineLength)) ∧
      recordWith cat s = some (makeRecord s.pc true o d (s.operandBytes (s.pc.toNat + 2) d.inlineLength))) ∨
    (∃ o, s.memRead s.pc.toNat = some 0xCB ∧ s.memRead (s.pc.toNat + 1) = some o ∧ cat.lookup true o = none ∧
      stepWith cat s = haltUnknownOpcode true o s ∧ recordWith cat s = none) ∨
    (s.memRead s.pc.toNat = some 0xCB ∧ s.pc.toNat = 0xFFFF ∧
      stepWith cat s = .fault (.fetchOutsideMemory 0x10000) ∧ recordWith cat s = none) := by
  by_cases ho : s.mem.read s.pc.toNat = 0xCB
  · have hm : s.memRead s.pc.toNat = some 0xCB := by rw [memRead_pc, ho]
    by_cases hp : s.pc.toNat ≤ 0xFFFE
    · have hm2 := memRead_pc_succ s hp
      have h := decodeWith_prefixed cat hm hm2
      cases hl : cat.lookup true (s.mem.read (s.pc.toNat + 1)) with
      | none =>
        simp only [decodeCbWith, hl] at h
        refine .inr (.inr (.inr (.inl ⟨_, hm, hm2, hl, ?_, ?_⟩)))
        · rw [stepWith_running hr, h]; rfl
        · rw [recordWith, hr, h]; rfl
      | some d =>
        simp only [decodeCbWith, hl] at h
        refine .inr (.inr (.inl ⟨_, d, hm, hm2, hl, ?_, ?_⟩))
        · rw [stepWith_running hr, h]; rfl
        · rw [recordWith, hr, h, takeInline_bytesFrom s _ _ _ (by simp [Config.memSize])]; rfl
    · have hp2 : s.pc.toNat = 0xFFFF := by have := s.pc.isLt; omega
      have hw : decodeWith cat s.fetchWindow = .ok (.escape, []) := by
        rw [fetchWindow_eq, ho, hp2]; rfl
      have hn : s.memRead (s.pc.toNat + 1) = none := by rw [hp2]; rfl
      refine .inr (.inr (.inr (.inr ⟨hm, hp2, ?_, ?_⟩)))
      · rw [stepWith_running hr, hw]
        show execEscapeWith refCat s = _
        simp only [execEscapeWith, hn]
        rw [hp2]
      · rw [recordWith, hr, hw]
        show emitEscapeWith refCat s = none
        simp only [emitEscapeWith, hn]
  · have hm := memRead_pc s
    have h := decodeWith_unprefixed cat hm ho
    cases hl : cat.lookup false (s.mem.read s.pc.toNat) with
    | none =>
      simp only [decodeUnprefixedWith, hl] at h
      refine .inr (.inl ⟨_, hm, ho, hl, ?_, ?_⟩)
      · rw [stepWith_running hr, h]; rfl
      · rw [recordWith, hr, h]; rfl
    | some d =>
      simp only [decodeUnprefixedWith, hl] at h
      refine .inl ⟨_, d, hm, ho, hl, ?_, ?_⟩
      · rw [stepWith_running hr, h]; rfl
      · rw [recordWith, hr, h, takeInline_bytesFrom s _ _ _ (by simp only [Config.memSize]; omega)]; rfl

/-- What a row of REF_CAT emits. -/
theorem emit_reference (i : Instr) (s : State) (h : i.isReference = true) :
    emit i s =
      (refCat.lookup i.prefixed i.opcode).map fun d => makeRecord s.pc i.prefixed i.opcode d i.inline := by
  cases i <;> first | rfl | cases h

end Sys2Proof.Machine
end

