-- ==== Sys2Proof/Tests/Slice0.lean ====
section
/-! SUPPORT. Tests, with values from spec/95_test_vectors.md and opcode_table.json, and a witness for the hypotheses of
every obligation that has some. -/

namespace Sys2Proof.Tests

open Sys2Proof.Machine Sys2Proof.Claims

/-! ## Helpers -/

/-- Reset, with other bytes at another pc. -/
def stateAt (pc : Word) (bs : List Byte) : State :=
  { State.reset with pc := pc, mem := Memory.writeBytes [] pc.toNat bs }

/-- The next state of an answer. -/
def nextOf : Result → Option State
  | .next t => some t
  | .fault _ => none
  | .refused _ => none

/-- The pc and the run state of a next state. -/
def pcRun (r : Result) : Option (Word × RunState) :=
  (nextOf r).map fun t => (t.pc, t.run)

/-- A record without its descriptor: REF_CAT's holds free values (log 2). -/
def bare (r : DecodeRecord) : DecodeRecord := { r with descriptor := default }

/-- A record as 95_test_vectors.md writes one. -/
def bareRecord (address : Word) (prefixed : Bool) (opcode : Byte) (mnemonic : String)
    (operands : List (String × List (Option Byte))) (length : Nat) : DecodeRecord :=
  { address, prefixed, opcode, descriptor := default, mnemonic, operands, length }

/-- An entry of a small catalog. -/
def entry (mnemonic : String) (bytes : Nat) (operands : List (String × Option Nat)) : Descriptor where
  mnemonic := mnemonic
  bytes := bytes
  cycles := .one 4
  operands := operands.map fun o => { name := o.1, bytes := o.2, immediate := true }
  immediate := true
  flags := { z := .unaffected, n := .unaffected, h := .unaffected, c := .unaffected }

/-- The catalog MINI of 95_test_vectors.md. -/
def mini : Catalog where
  unprefixed op :=
    if op = 0x00 then some (entry "NOP" 1 [])
    else if op = 0x3E then some (entry "LD" 2 [("A", none), ("n8", some 1)])
    else if op = 0x01 then some (entry "LD" 3 [("BC", none), ("n16", some 2)])
    else none
  cbprefixed op := if op = 0x00 then some (entry "RLC" 2 [("B", none)]) else none

/-- The catalog of vector DW2: two inline operands, whose declared length is right. -/
def twoOperands : Catalog where
  unprefixed op := if op = 0x01 then some (entry "W" 4 [("x", some 1), ("y", some 2)]) else none
  cbprefixed _ := none

/-- A catalog with one entry in each space and no other. -/
def single (u : Byte) (du : Descriptor) (c : Byte) (dc : Descriptor) : Catalog where
  unprefixed op := if op = u then some du else none
  cbprefixed op := if op = c then some dc else none

/-! ## WellFormed refuses what is no instruction -/

/-- The escape byte is no unprefixed opcode (30_encoding.md R70, R75). -/
theorem test_wf_escape_is_no_opcode :
    (Instr.unprefixedMapped 0xCB (entry "PREFIX" 1 []) []).wf = false ∧ (Instr.unprefixedUnknown 0xCB).wf = false ∧
    (Instr.unprefixedMapped 0xCA (entry "X" 1 []) []).wf = true := by decide

/-- A generic row has as many operand bytes as its entry says (30_encoding.md R72). -/
theorem test_wf_operand_count :
    (Instr.unprefixedMapped 0x3E (entry "LD" 2 [("n8", some 1)]) []).wf = false ∧
    (Instr.cbMapped 0x00 (entry "RLC" 2 [("B", none)]) [some 1]).wf = false ∧
    (Instr.unprefixedMapped 0x3E (entry "LD" 2 [("n8", some 1)]) [some 7]).wf = true := by decide

/-- Absent operand bytes come last (40_decode_loop.md R113). -/
theorem test_wf_absent_bytes_last :
    (Instr.unprefixedMapped 0x01 (entry "LD" 3 [("n16", some 2)]) [none, some 1]).wf = false ∧
    (Instr.cbMapped 0x01 (entry "X" 4 [("n16", some 2)]) [none, some 1]).wf = false ∧
    (Instr.jpA16 none (some 1)).wf = false ∧ (Instr.jpA16 (some 1) none).wf = true := by decide

/-- The place of `LD [HL],[HL]` is HALT's (41_catalog.md R154). -/
theorem test_wf_no_load_hl_hl :
    (Instr.ldR8R8 .hlMem .hlMem).wf = false ∧ (Instr.ldR8R8 .hlMem .b).wf = true := by decide

/-! ## Decoding: every constructor, by a word of opcode_table.json -/

theorem test_decode_loads :
    decodeTableWord 24 0b00100001 = some (.ldR16N16 .hl (some 0) (some 0)) ∧
    decodeTableWord 8 0b00100010 = some (.ldMemA .hlInc) ∧
    decodeTableWord 8 0b00111010 = some (.ldAMem .hlDec) ∧
    decodeTableWord 24 0b00001000 = some (.ldA16Sp (some 0) (some 0)) ∧
    decodeTableWord 16 0b0100001000111110 = some (.ldR8N8 .a (some 0x42)) ∧
    decodeTableWord 8 0b01010110 = some (.ldR8R8 .d .hlMem) ∧
    decodeTableWord 24 0b11101010 = some (.ldA16A (some 0) (some 0)) ∧
    decodeTableWord 24 0b11111010 = some (.ldAA16 (some 0) (some 0)) ∧
    decodeTableWord 16 0b11111000 = some (.ldHlSpE8 (some 0)) ∧
    decodeTableWord 8 0b11111001 = some .ldSpHl ∧
    decodeTableWord 16 0b11100000 = some (.ldhA8A (some 0)) ∧
    decodeTableWord 16 0b11110000 = some (.ldhAA8 (some 0)) ∧
    decodeTableWord 8 0b11100010 = some .ldhCA ∧
    decodeTableWord 8 0b11110010 = some .ldhAC ∧
    decodeTableWord 8 0b11010101 = some (.pushPair .de) ∧
    decodeTableWord 8 0b11110001 = some (.popPair .af) := by decide

theorem test_decode_arithmetic_registers :
    decodeTableWord 8 0b00110011 = some (.incR16 .sp) ∧
    decodeTableWord 8 0b00011011 = some (.decR16 .de) ∧
    decodeTableWord 8 0b00110100 = some (.incR8 .hlMem) ∧
    decodeTableWord 8 0b00101101 = some (.decR8 .l) ∧
    decodeTableWord 8 0b00101001 = some (.addHlR16 .hl) ∧
    decodeTableWord 16 0b11101000 = some (.addSpE8 (some 0)) ∧
    decodeTableWord 8 0b10000000 = some (.addR8 .b) ∧
    decodeTableWord 8 0b10001001 = some (.adcR8 .c) ∧
    decodeTableWord 8 0b10010010 = some (.subR8 .d) ∧
    decodeTableWord 8 0b10011011 = some (.sbcR8 .e) ∧
    decodeTableWord 8 0b10100100 = some (.andR8 .h) ∧
    decodeTableWord 8 0b10101101 = some (.xorR8 .l) ∧
    decodeTableWord 8 0b10110110 = some (.orR8 .hlMem) ∧
    decodeTableWord 8 0b10111111 = some (.cpR8 .a) := by decide

theorem test_decode_arithmetic_immediate :
    decodeTableWord 16 0b11000110 = some (.addN8 (some 0)) ∧
    decodeTableWord 16 0b11001110 = some (.adcN8 (some 0)) ∧
    decodeTableWord 16 0b11010110 = some (.subN8 (some 0)) ∧
    decodeTableWord 16 0b11011110 = some (.sbcN8 (some 0)) ∧
    decodeTableWord 16 0b11100110 = some (.andN8 (some 0)) ∧
    decodeTableWord 16 0b11101110 = some (.xorN8 (some 0)) ∧
    decodeTableWord 16 0b11110110 = some (.orN8 (some 0)) ∧
    decodeTableWord 16 0b11111110 = some (.cpN8 (some 0)) ∧
    decodeTableWord 8 0b00000111 = some .rlca ∧
    decodeTableWord 8 0b00001111 = some .rrca ∧
    decodeTableWord 8 0b00010111 = some .rla ∧
    decodeTableWord 8 0b00011111 = some .rra ∧
    decodeTableWord 8 0b00100111 = some .daa ∧
    decodeTableWord 8 0b00101111 = some .cpl ∧
    decodeTableWord 8 0b00110111 = some .scf ∧
    decodeTableWord 8 0b00111111 = some .ccf := by decide

theorem test_decode_control :
    decodeTableWord 16 0b00011000 = some (.jrE8 (some 0)) ∧
    decodeTableWord 16 0b00101000 = some (.jrCondE8 .z (some 0)) ∧
    decodeTableWord 24 0b000000010101000011000011 = some (.jpA16 (some 0x50) (some 0x01)) ∧
    decodeTableWord 24 0b11011010 = some (.jpCondA16 .c (some 0) (some 0)) ∧
    decodeTableWord 8 0b11101001 = some .jpHl ∧
    decodeTableWord 24 0b11001101 = some (.callA16 (some 0) (some 0)) ∧
    decodeTableWord 24 0b11010100 = some (.callCondA16 .nc (some 0) (some 0)) ∧
    decodeTableWord 8 0b11001001 = some .ret ∧
    decodeTableWord 8 0b11000000 = some (.retCond .nz) ∧
    decodeTableWord 8 0b11011001 = some .reti ∧
    decodeTableWord 8 0b11111111 = some (.rst 7) := by decide

theorem test_decode_system :
    decodeTableWord 8 0b00000000 = some .nop ∧
    decodeTableWord 16 0b00010000 = some (.stopN8 (some 0)) ∧
    decodeTableWord 8 0b01110110 = some .halt ∧
    decodeTableWord 8 0b11110011 = some .di ∧
    decodeTableWord 8 0b11111011 = some .ei := by decide

theorem test_decode_illegal :
    decodeTableWord 8 0xD3 = some .illegalD3 ∧ decodeTableWord 8 0xDB = some .illegalDB ∧
    decodeTableWord 8 0xDD = some .illegalDD ∧ decodeTableWord 8 0xE3 = some .illegalE3 ∧
    decodeTableWord 8 0xE4 = some .illegalE4 ∧ decodeTableWord 8 0xEB = some .illegalEB ∧
    decodeTableWord 8 0xEC = some .illegalEC ∧ decodeTableWord 8 0xED = some .illegalED ∧
    decodeTableWord 8 0xF4 = some .illegalF4 ∧ decodeTableWord 8 0xFC = some .illegalFC ∧
    decodeTableWord 8 0xFD = some .illegalFD := by decide

theorem test_decode_cb :
    decodeTableWord 16 0b1100101100000000 = some (.rlc .b) ∧
    decodeTableWord 16 0b1100101100001001 = some (.rrc .c) ∧
    decodeTableWord 16 0b1100101100010010 = some (.rl .d) ∧
    decodeTableWord 16 0b1100101100011011 = some (.rr .e) ∧
    decodeTableWord 16 0b1100101100100100 = some (.sla .h) ∧
    decodeTableWord 16 0b1100101100101101 = some (.sra .l) ∧
    decodeTableWord 16 0b1100101100110110 = some (.swap .hlMem) ∧
    decodeTableWord 16 0b1100101100111111 = some (.srl .a) ∧
    decodeTableWord 16 0b1100101101111100 = some (.bit 7 .h) ∧
    decodeTableWord 16 0b1100101110011001 = some (.res 3 .c) ∧
    decodeTableWord 16 0b1100101111001011 = some (.setBit 1 .e) := by decide

/-- The decoder-level rows (30_encoding.md R77), under MINI; the escape alone at the end of the bytes. -/
theorem test_decode_decoder_level :
    decodeWith mini [0x3E, 0x42, 0x99] =
      .ok (.unprefixedMapped 0x3E (entry "LD" 2 [("A", none), ("n8", some 1)]) [some 0x42], [0x99]) ∧
    decodeWith mini [0xD3, 0x42] = .ok (.unprefixedUnknown 0xD3, [0x42]) ∧
    decodeWith mini [0xCB] = .ok (.escape, []) ∧
    decodeWith mini [0xCB, 0x00, 0x42] = .ok (.cbMapped 0x00 (entry "RLC" 2 [("B", none)]) [], [0x42]) ∧
    decodeWith mini [0xCB, 0x11] = .ok (.cbUnknown 0x11, []) := ⟨rfl, rfl, rfl, rfl, rfl⟩

/-- The second 0xCB is no escape (vector DC3, 30_encoding.md R71). -/
theorem test_decode_cb_cb : decode [0xCB, 0xCB] = .ok (.setBit 1 .e, []) := rfl

/-- Nothing to decode. -/
theorem test_decode_no_byte : decode [] = .error .noByte ∧ decodeWith mini [] = .error .noByte := ⟨rfl, rfl⟩

/-! ## Steps under REF_CAT (95_test_vectors.md 2.1, 2.2) -/

/-- Vectors DU2 and DU3: an operand byte is skipped; a jump is not taken. -/
theorem test_step_skips_operands :
    nextOf (step (stateAt 0x0150 [0x3E, 0x42])) = some { stateAt 0x0150 [0x3E, 0x42] with pc := 0x0152 } ∧
    nextOf (step (stateAt 0x0100 [0xC3, 0x50, 0x01])) =
      some { stateAt 0x0100 [0xC3, 0x50, 0x01] with pc := 0x0103 } := by decide

/-- Vectors DU4 to DU8: branches, HALT, calls, returns and ILLEGAL_D3 only advance the pc. -/
theorem test_step_no_effect :
    pcRun (step (stateAt 0x0300 [0x18, 0xFE])) = some (0x0302, .running) ∧
    pcRun (step (stateAt 0x0200 [0x76])) = some (0x0201, .running) ∧
    pcRun (step (stateAt 0x0200 [0xCD, 0x00, 0x40])) = some (0x0203, .running) ∧
    pcRun (step (stateAt 0x0400 [0xC9])) = some (0x0401, .running) ∧
    pcRun (step (stateAt 0x0400 [0xD3])) = some (0x0401, .running) := by decide

/-- Vectors DU9 to DU15: the top of memory. -/
theorem test_step_top_of_memory :
    pcRun (step (stateAt 0xFFFE [0x00])) = some (0xFFFF, .halted .pcOverflow) ∧
    pcRun (step (stateAt 0xFFFD [0x3E])) = some (0xFFFF, .halted .pcOverflow) ∧
    pcRun (step (stateAt 0xFFFE [0x3E])) = some (0xFFFF, .halted .pcOverflow) ∧
    pcRun (step (stateAt 0xFFFC [0xFA])) = some (0xFFFF, .halted .pcOverflow) ∧
    pcRun (step (stateAt 0xFFFD [0x01])) = some (0xFFFF, .halted .pcOverflow) ∧
    pcRun (step (stateAt 0xFFFE [0xC3])) = some (0xFFFF, .halted .pcOverflow) ∧
    pcRun (step (stateAt 0xFFFB [0x01])) = some (0xFFFE, .running) := by decide

/-- Vectors DC1 to DC6. -/
theorem test_step_cb :
    pcRun (step (stateAt 0x0100 [0xCB])) = some (0x0102, .running) ∧
    pcRun (step (stateAt 0x0200 [0xCB, 0x7C])) = some (0x0202, .running) ∧
    pcRun (step (stateAt 0x0200 [0xCB, 0xCB])) = some (0x0202, .running) ∧
    pcRun (step (stateAt 0xFFFD [0xCB, 0x37])) = some (0xFFFF, .halted .pcOverflow) ∧
    pcRun (step (stateAt 0xFFFE [0xCB, 0x37])) = some (0xFFFF, .halted .pcOverflow) := by decide

/-- The records of vectors DU2, DU3, DU14 and DC6. -/
theorem test_records :
    (stepRecord (stateAt 0x0150 [0x3E, 0x42])).map bare =
      some (bareRecord 0x0150 false 0x3E "LD" [("n8", [some 0x42])] 2) ∧
    (stepRecord (stateAt 0x0100 [0xC3, 0x50, 0x01])).map bare =
      some (bareRecord 0x0100 false 0xC3 "JP" [("a16", [some 0x50, some 0x01])] 3) ∧
    (stepRecord (stateAt 0xFFFE [0xC3, 0x77])).map bare =
      some (bareRecord 0xFFFE false 0xC3 "JP" [("a16", [some 0x77, none])] 3) ∧
    (stepRecord (stateAt 0xFFFE [0xCB, 0x37])).map bare = some (bareRecord 0xFFFE true 0x37 "SWAP" [] 2) := by decide

/-- A listing line in the form of 30_encoding.md R82. -/
theorem test_listing :
    (stepRecord (stateAt 0x0104 [0x3E, 0x42])).map DecodeRecord.listing = some "0104: 3E 42  LD A,n8" := by decide

/-! ## Steps under other catalogs (95_test_vectors.md 2.2 to 2.4) -/

/-- Vectors DC7, DK1 to DK4. -/
theorem test_step_mini :
    pcRun (stepWith mini (stateAt 0x0100 [0xCB])) = some (0x0102, .running) ∧
    pcRun (stepWith mini (stateAt 0x0123 [0xD3])) = some (0x0124, .halted (.unknownOpcode false 0xD3 0x0123)) ∧
    pcRun (stepWith mini (stateAt 0x0103 [0xCB, 0x11])) = some (0x0105, .halted (.unknownOpcode true 0x11 0x0103)) ∧
    pcRun (stepWith mini (stateAt 0xFFFE [0xCB, 0x37])) = some (0xFFFF, .halted (.unknownOpcode true 0x37 0xFFFE)) ∧
    pcRun (stepWith mini (stateAt 0xFFFE [0x76])) = some (0xFFFF, .halted (.unknownOpcode false 0x76 0xFFFE)) := by decide

/-- Vectors DK5 and DK6: the unprefixed entry under 0xCB is not consulted. -/
theorem test_step_empty_cb_space :
    pcRun (stepWith ⟨fun _ => some (entry "X" 1 []), fun _ => none⟩ (stateAt 0x0100 [0xCB])) =
      some (0x0102, .halted (.unknownOpcode true 0x00 0x0100)) := by decide

/-- Vectors DW1 to DW4: the pc advances by the operand lengths, whatever the declared length. -/
theorem test_step_operand_lengths :
    pcRun (stepWith (single 0x3E (entry "LD" 5 [("A", none), ("n8", some 1)]) 0 (entry "X" 2 []))
      (stateAt 0x0100 [0x3E])) = some (0x0102, .running) ∧
    pcRun (stepWith twoOperands (stateAt 0x0100 [0x01])) = some (0x0104, .running) ∧
    pcRun (stepWith (single 0x05 (entry "Z" 1 [("z", some 0)]) 0 (entry "X" 2 [])) (stateAt 0x0100 [0x05])) =
      some (0x0101, .running) ∧
    pcRun (stepWith (single 0x3E (entry "X" 1 []) 0x00 (entry "X" 3 [("n8", some 1)])) (stateAt 0x0100 [0xCB])) =
      some (0x0103, .running) := by decide

/-- The record of vector DW2. -/
theorem test_record_two_operands :
    (recordWith twoOperands (stateAt 0x0100 [0x01, 0xAA, 0xBB, 0xCC])).map bare =
      some (bareRecord 0x0100 false 0x01 "W" [("x", [some 0xAA]), ("y", [some 0xBB, some 0xCC])] 4) := by decide

/-- Program P3: its image, under MINI. -/
def programP3 : State :=
  stateAt 0x0100 [0x00, 0x3E, 0x07, 0xCB, 0x00, 0x01, 0xFF, 0xFF, 0xCB, 0x11]

/-- Program P3's end: 5 steps, 4 records, the status word. -/
theorem test_program_p3 :
    nextOf (runWith mini 5 programP3) =
      some { programP3 with pc := 0x010A, run := .halted (.unknownOpcode true 0x11 0x0108) } ∧
    (traceWith mini 5 programP3).map (fun r => (r.address, r.length)) =
      [(0x0100, 1), (0x0101, 2), (0x0103, 2), (0x0105, 3)] ∧
    (RunState.halted (.unknownOpcode true 0x11 0x0108)).statusWord = 0x01081106#32 := by decide

/-! ## Processor state operations (95_test_vectors.md 2.6) -/

/-- Vectors PS1 and PS2. -/
theorem test_load_program :
    (State.new.loadProgram []).toOption = some State.new ∧
    ((State.new.loadProgram [0x3E, 0x42]).toOption.map fun s =>
      [s.readMem 0x00FF, s.readMem 0x0100, s.readMem 0x0101, s.readMem 0x0102]) = some [0, 0x3E, 0x42, 0] := by decide

/-- Vector PS5: a second image overwrites only what it covers. -/
theorem test_load_program_twice :
    ((setup [.loadProgram [1, 2, 3], .loadProgram [9]] State.new).toOption.map fun s =>
      [s.readMem 0x0100, s.readMem 0x0101, s.readMem 0x0102]) = some [9, 2, 3] := by decide

/-- Vectors PS6 to PS9 and PS13. -/
theorem test_pairs :
    (State.new.write8 .a 0x12).read16 .af = 0x1200 ∧
    (State.new.write16 .af 0x12FF).read8 .a = 0x12 ∧ (State.new.write16 .af 0x12FF).read8 .f = 0xF0 ∧
    (State.new.write16 .hl 0xC000).read8 .h = 0xC0 ∧ (State.new.write16 .hl 0xC000).read8 .l = 0x00 ∧
    ((State.new.write8 .b 0xAB).write8 .c 0xCD).read16 .bc = 0xABCD ∧
    (State.new.writeSp 0xFFFE).read16 .hl = 0 := by decide

/-- Vectors PS10 to PS12 and W10. -/
theorem test_flags :
    ((State.new.setFlag .z).setFlag .c).read8 .f = 0x90 ∧
    (((State.new.setFlag .n).setFlag .h).clearFlag .n).read8 .f = 0x20 ∧
    (State.new.write8 .f 0x0F).read8 .f = 0 ∧ (State.new.write8 .f 0xFF).read8 .f = 0xF0 := by decide

/-! ## Catalog loading (95_test_vectors.md 2.5) -/

/-- A serialized record that loads. -/
def goodEntry : RawEntry where
  key := "0x3E"
  mnemonic := .present "LD"
  bytes := .present 2
  cycles := .present [8]
  operands := .present [{ name := .present "A", bytes := .absent, immediate := .present true },
    { name := .present "n8", bytes := .present 1, immediate := .present true }]
  immediate := .present false
  flags := .present { z := .present "Z", n := .present "0", h := .present "1", c := .present "-" }

/-- A source whose unprefixed collection holds one record. -/
def sourceOf (e : RawEntry) : Source := .table { unprefixed := .present [e], cbprefixed := .present [] }

/-- The error of a load. -/
def errorOf {α : Type} : Except StartupError α → Option StartupError
  | .ok _ => none
  | .error e => some e

/-- A good record loads under its key, with its flag effects (41_catalog.md R143). -/
theorem test_load_good :
    ((loadCatalog referenceKeyFormat (sourceOf goodEntry)).toOption.bind fun cat => cat.lookup false 0x3E).map
      (fun d => (d.bytes, d.flags.z, d.flags.n, d.flags.h, d.flags.c)) =
      some (2, .dependent, .cleared, .set, .unaffected) := by decide

/-- Its operands are loaded in order, with their static lengths, and its cycle counts (41_catalog.md R141, R142). -/
theorem test_load_good_operands :
    ((loadCatalog referenceKeyFormat (sourceOf goodEntry)).toOption.bind fun cat => cat.lookup false 0x3E).map
      (fun d => (d.operands.map (fun o => (o.name, o.bytes)), d.cycles)) =
      some ([("A", none), ("n8", some 1)], .one 8) := by decide

/-- Vectors CL5 to CL9. -/
theorem test_load_bad :
    errorOf (loadCatalog referenceKeyFormat (sourceOf { goodEntry with mnemonic := .absent })) =
      some (.malformedCatalog "0x3E" "mnemonic") ∧
    errorOf (loadCatalog referenceKeyFormat (sourceOf { goodEntry with key := "0xG1" })) =
      some (.malformedCatalog "0xG1" "key") ∧
    errorOf (loadCatalog referenceKeyFormat (sourceOf { goodEntry with cycles := .present [] })) =
      some (.malformedCatalog "0x3E" "cycles") ∧
    errorOf (loadCatalog referenceKeyFormat (sourceOf { goodEntry with cycles := .present [4, 8, 12] })) =
      some (.malformedCatalog "0x3E" "cycles") ∧
    errorOf (loadCatalog referenceKeyFormat (sourceOf { goodEntry with
      operands := .present [{ name := .present "n8", bytes := .present (-1), immediate := .present true }] })) =
      some (.malformedCatalog "0x3E" "operands.bytes") ∧
    errorOf (loadCatalog referenceKeyFormat .unreadable) = some .catalogUnavailable := by decide

/-- Vectors CL1 to CL4. -/
theorem test_lookup :
    (refCat.lookup false 0x00).map (fun d => (d.mnemonic, d.bytes)) = some ("NOP", 1) ∧
    (refCat.lookup true 0x00).map (fun d => (d.mnemonic, d.bytes)) = some ("RLC", 2) ∧
    mini.lookup false 0x02 = none ∧ mini.lookup true 0xFF = none := by decide

/-- The codes of 60_exceptions.md R207. -/
theorem test_codes :
    StartupError.catalogUnavailable.code = 1 ∧ (StartupError.malformedCatalog "" "").code = 2 ∧
    StartupError.romTooLarge.code = 3 ∧ HaltReason.pcOverflow.code = 1 ∧
    (HaltReason.unknownOpcode false 0 0).code = 2 := by decide

/-! ## Witnesses

For each obligation with hypotheses, by its name: a concrete state and operands that meet them together, one for each
clause where there are several. -/

theorem witness_StepRunsDecodedInstruction :
    (stateAt 0x0100 [0x41]).run = .running ∧
    (∃ rest, decode (stateAt 0x0100 [0x41]).fetchWindow = .ok (.ldR8R8 .b .c, rest)) ∧
    ∃ rest, decodeWith mini (stateAt 0x0100 [0x41]).fetchWindow = .ok (.unprefixedUnknown 0x41, rest) :=
  ⟨rfl, ⟨_, rfl⟩, ⟨_, rfl⟩⟩

/-- A complete instruction with bytes after it, and one with an absent byte at the end. -/
theorem witness_DecodeOfEncodeReference :
    ((Instr.jpA16 (some 0x50) (some 0x01)).isReference = true ∧ (Instr.jpA16 (some 0x50) (some 0x01)).wf = true ∧
      (Instr.jpA16 (some 0x50) (some 0x01)).complete = true) ∧
    (Instr.jpA16 (some 0x50) none).isReference = true ∧ (Instr.jpA16 (some 0x50) none).wf = true ∧
      (Instr.jpA16 (some 0x50) none).complete = false := by decide

theorem witness_EncodeOfDecodeReference :
    decode [0x3E, 0x42, 0x99] = .ok (.ldR8N8 .a (some 0x42), [0x99]) ∧ decode [0xCB] = .ok (.escape, []) := ⟨rfl, rfl⟩

theorem witness_DecodeOfEncodeEveryCatalog :
    (Instr.unprefixedMapped 0x3E (entry "LD" 2 [("A", none), ("n8", some 1)]) [some 7]).inCatalog mini ∧
    (Instr.unprefixedMapped 0x3E (entry "LD" 2 [("A", none), ("n8", some 1)]) [some 7]).wf = true ∧
    (Instr.unprefixedMapped 0x3E (entry "LD" 2 [("A", none), ("n8", some 1)]) [some 7]).complete = true ∧
    (Instr.cbUnknown 0x11).inCatalog mini ∧ (Instr.cbUnknown 0x11).wf = true :=
  ⟨rfl, rfl, rfl, rfl, rfl⟩

theorem witness_EncodeOfDecodeEveryCatalog : decodeWith mini [0xCB, 0x11] = .ok (.cbUnknown 0x11, []) := rfl

theorem witness_ReferenceRowsMatchTheGrid :
    (Instr.bit 7 .h).isReference = true ∧ (Instr.bit 7 .h).wf = true := by decide

/-- Also at the top of memory, with an operand past it. -/
theorem witness_UnprefixedMappedStep :
    ∃ d, mini.unprefixed 0x3E = some d ∧ (0x3E : Byte) ≠ 0xCB ∧
      ((stateAt 0x0150 [0x3E, 0x42]).run = .running ∧ (stateAt 0x0150 [0x3E, 0x42]).memRead 0x0150 = some 0x3E) ∧
      ((stateAt 0xFFFE [0x3E]).run = .running ∧ (stateAt 0xFFFE [0x3E]).memRead 0xFFFE = some 0x3E) :=
  ⟨_, rfl, by decide, by decide, by decide⟩

/-- Also at 0xFFFE. -/
theorem witness_CbMappedStep :
    ∃ d, mini.cbprefixed 0x00 = some d ∧ (stateAt 0xFFFE [0xCB]).run = .running ∧
      (stateAt 0xFFFE [0xCB]).memRead 0xFFFE = some 0xCB ∧ (stateAt 0xFFFE [0xCB]).memRead 0xFFFF = some 0x00 :=
  ⟨_, rfl, by decide⟩

theorem witness_UnprefixedUnmappedHalts :
    mini.unprefixed 0x76 = none ∧ (0x76 : Byte) ≠ 0xCB ∧ (stateAt 0xFFFE [0x76]).run = .running ∧
    (stateAt 0xFFFE [0x76]).pc.toNat ≤ 0xFFFE ∧
    (stateAt 0xFFFE [0x76]).memRead (stateAt 0xFFFE [0x76]).pc.toNat = some 0x76 := by decide

theorem witness_CbUnmappedHalts_and_UnknownOpcodeWinsOverPcOverflow :
    mini.cbprefixed 0x37 = none ∧ (stateAt 0xFFFE [0xCB, 0x37]).run = .running ∧
    (stateAt 0xFFFE [0xCB, 0x37]).pc = 0xFFFE#16 ∧ (stateAt 0xFFFE [0xCB, 0x37]).memRead 0xFFFE = some 0xCB ∧
    (stateAt 0xFFFE [0xCB, 0x37]).memRead 0xFFFF = some 0x37 := by decide

/-- Below 0xFFFE, and at it. -/
theorem witness_NoOperationConsumesOneByte :
    ∃ d, mini.unprefixed 0x00 = some d ∧ inlineSum d = 0 ∧
      ((stateAt 0xFFFD []).run = .running ∧ (stateAt 0xFFFD []).memRead 0xFFFD = some 0x00 ∧
        (stateAt 0xFFFD []).pc.toNat < 0xFFFE) ∧
      ((stateAt 0xFFFE []).run = .running ∧ (stateAt 0xFFFE []).memRead 0xFFFE = some 0x00 ∧
        (stateAt 0xFFFE []).pc.toNat = 0xFFFE) :=
  ⟨_, rfl, rfl, by decide, by decide⟩

/-- Below 0xFFFD, and at it. -/
theorem witness_CbZeroConsumesTwoBytes :
    ∃ d, mini.cbprefixed 0x00 = some d ∧ inlineSum d = 0 ∧
      ((stateAt 0xFFFC [0xCB]).run = .running ∧ (stateAt 0xFFFC [0xCB]).memRead 0xFFFC = some 0xCB ∧
        (stateAt 0xFFFC [0xCB]).memRead 0xFFFD = some 0x00 ∧ (stateAt 0xFFFC [0xCB]).pc.toNat < 0xFFFD) ∧
      ((stateAt 0xFFFD [0xCB]).run = .running ∧ (stateAt 0xFFFD [0xCB]).memRead 0xFFFD = some 0xCB ∧
        (stateAt 0xFFFD [0xCB]).memRead 0xFFFE = some 0x00 ∧ 0xFFFD ≤ (stateAt 0xFFFD [0xCB]).pc.toNat) :=
  ⟨_, rfl, rfl, by decide, by decide⟩

theorem witness_rows_complete :
    Instr.ret.format = .u1 ∧ (Instr.jrE8 (some 0xFE)).format = .u2 ∧ (Instr.callA16 none none).format = .u3 ∧
    (Instr.res 3 .hlMem).format = .cb2 ∧ State.reset.run = .running := by decide

/-- Also at 0xFFFE, the last address with a byte after it. -/
theorem witness_EscapeCompletesAsItsCbRow :
    (stateAt 0xFFFE [0xCB, 0x37]).run = .running ∧
    (stateAt 0xFFFE [0xCB, 0x37]).memRead ((stateAt 0xFFFE [0xCB, 0x37]).pc.toNat + 1) = some 0x37 := by decide

theorem witness_EscapeAtTheLastAddressStops : (stateAt 0xFFFF [0xCB]).pc = 0xFFFF#16 := by decide

theorem witness_StepWritesOnlyPcAndRun :
    (∃ t, stepWith mini (stateAt 0x0100 []) = .next t) ∧ ∃ t, stepWith mini (stateAt 0x0100 [0xD3]) = .next t :=
  ⟨⟨_, rfl⟩, ⟨_, rfl⟩⟩

theorem witness_InstructionFrame :
    (∃ t, exec (.pushPair .bc) State.reset = .next t) ∧ ∃ t, exec (.cbUnknown 0x11) State.reset = .next t :=
  ⟨⟨_, rfl⟩, ⟨_, rfl⟩⟩

/-- Two states that differ in an operand byte, a register and the stack pointer; and two at an escape. -/
theorem witness_OperandValuesAreNotConsulted :
    ((stateAt 0x0100 [0x3E, 1]).pc = ((stateAt 0x0100 [0x3E, 2]).write8 .b 7).pc ∧
      (stateAt 0x0100 [0x3E, 1]).memRead 0x0100 = ((stateAt 0x0100 [0x3E, 2]).write8 .b 7).memRead 0x0100 ∧
      ((stateAt 0x0100 [0x3E, 2]).write8 .b 7).writeSp 9 ≠ stateAt 0x0100 [0x3E, 1]) ∧
    ((stateAt 0x0100 [0xCB, 0, 5]).memRead 0x0100 = some 0xCB ∧
      (stateAt 0x0100 [0xCB, 0, 5]).memRead 0x0101 = (stateAt 0x0100 [0xCB, 0, 6]).memRead 0x0101) ∧
    (pcRun (stepWith mini (stateAt 0x0100 [0x3E, 1]))).isSome = true := by decide

/-- Two catalogs with other mnemonics and declared lengths. -/
theorem witness_OnlyOperandLengthsMatter : ∀ (prefixed : Bool) (op : Byte),
    ((single 0x3E (entry "LD" 2 [("n8", some 1)]) 0 (entry "RLC" 2 [])).lookup prefixed op).map inlineSum =
    ((single 0x3E (entry "X" 9 [("x", none), ("y", some 1)]) 0 (entry "Y" 7 [])).lookup prefixed op).map inlineSum := by
  decide

/-- Two catalogs that differ under the unprefixed key 0xCB. -/
theorem witness_UnprefixedEscapeEntryIsNeverConsulted :
    (∀ op, (single 0xCB (entry "PREFIX" 1 []) 0 (entry "RLC" 2 [])).cbprefixed op =
      (single 0xCB (entry "X" 5 []) 0 (entry "RLC" 2 [])).cbprefixed op) ∧
    (∀ op, op ≠ 0xCB → (single 0xCB (entry "PREFIX" 1 []) 0 (entry "RLC" 2 [])).unprefixed op =
      (single 0xCB (entry "X" 5 []) 0 (entry "RLC" 2 [])).unprefixed op) := by
  exact ⟨fun _ => rfl, fun op h => (if_neg h).trans (if_neg h).symm⟩

theorem witness_SecondEscapeIsAnOpcode :
    (∃ d, (single 0x00 (entry "NOP" 1 []) 0xCB (entry "SET" 2 [])).lookup true 0xCB = some d) ∧
    mini.lookup true 0xCB = none := ⟨⟨_, rfl⟩, rfl⟩

theorem witness_PcAdvancesByAtLeastOne :
    (stateAt 0xFFFE [0xCB]).pc.toNat ≤ 0xFFFE ∧ ∃ t, stepWith mini (stateAt 0xFFFE [0xCB]) = .next t :=
  ⟨by decide, _, rfl⟩

/-- One step for each reason, unprefixed and prefixed. -/
theorem witness_HaltsOnlyForTwoReasons :
    (∃ t, stepWith mini (stateAt 0xFFFE [0xD3]) = .next t ∧ t.run ≠ .running) ∧
    (∃ t, stepWith mini (stateAt 0xFFFE [0xCB, 0x37]) = .next t ∧ t.run ≠ .running) ∧
    ∃ t, stepWith mini (stateAt 0xFFFE []) = .next t ∧ t.run ≠ .running :=
  ⟨⟨_, rfl, by decide⟩, ⟨_, rfl, by decide⟩, ⟨_, rfl, by decide⟩⟩

theorem witness_HaltedStateHasNoStep :
    (State.reset.halt (.unknownOpcode true 0x11 0x0108)).run = .halted (.unknownOpcode true 0x11 0x0108) := rfl

/-- At 0xFFFE, the last pc of a running state. -/
theorem witness_RunningStateAlwaysSteps_and_LoopAlwaysHalts :
    (stateAt 0xFFFE [0xCB, 0x37]).Inv ∧ (stateAt 0xFFFE [0xCB, 0x37]).run = .running ∧
    (stateAt 0xFFFE [0xCB, 0x37]).pc.toNat ≤ 0xFFFE :=
  ⟨⟨by decide, by decide, by decide⟩, by decide, by decide⟩

theorem witness_StepKeepsInvariant :
    (stateAt 0xFFFE [0xCB, 0x37]).Inv ∧ (∃ t, stepWith mini (stateAt 0xFFFE [0xCB, 0x37]) = .next t) ∧
    ∃ t, step (stateAt 0xFFFE [0xCB, 0x37]) = .next t :=
  ⟨⟨by decide, by decide, by decide⟩, ⟨_, rfl⟩, ⟨_, rfl⟩⟩

theorem witness_HostOperationsKeepInvariant :
    (∃ t, (HostOp.loadProgram [0x3E, 0x42]).apply (stateAt 0x0100 []) = .ok t) ∧
    (∃ t, (HostOp.write16 .af 0x12FF).apply (stateAt 0x0100 []) = .ok t) ∧ (stateAt 0x0100 []).Inv :=
  ⟨⟨_, rfl⟩, ⟨_, rfl⟩, ⟨by decide, by decide, by decide⟩⟩

/-- A state after a setup, a step that halts, and an accessor after the halt. -/
theorem witness_ReachableStatesMeetInvariant : ∃ s, Reachable mini s ∧ s.run ≠ .running ∧ s.read8 .a = 7 :=
  ⟨_, .access (op := .write8 .a 7)
    (.step (.start (ops := [.loadProgram [0xD3]]) rfl) (t := _) rfl) rfl rfl rfl, by decide, by decide⟩

theorem witness_MemoryIsConstantDuringARun : ∃ t, runWith mini 5 programP3 = .next t := ⟨_, rfl⟩

theorem witness_ReferenceRunsEndWithPcOverflow :
    (stateAt 0xFFFC [0x00, 0xCB, 0xCB]).run = .running ∧
    ∃ t, runWith refCat 2 (stateAt 0xFFFC [0x00, 0xCB, 0xCB]) = .next t ∧ t.run = .halted .pcOverflow :=
  ⟨rfl, _, rfl, rfl⟩

/-- A record with an operand before another, both with static lengths. -/
theorem witness_RecordOperandBytes :
    ∃ r, recordWith twoOperands (stateAt 0x0100 [0x01]) = some r ∧
      r.descriptor.operands =
        [{ name := "x", bytes := some 1, immediate := true }] ++ { name := "y", bytes := some 2, immediate := true } :: [] :=
  ⟨_, rfl, rfl⟩

/-- A run that goes on, one that ends with PcOverflow, and one that ends with UnknownOpcode. -/
theorem witness_OneRecordPerSuccessfulStep :
    (∃ t, runWith mini 4 programP3 = .next t ∧ t.run = .running) ∧
    (∃ t, runWith mini 1 (stateAt 0xFFFE []) = .next t ∧ t.run = .halted .pcOverflow) ∧
    ∃ t, runWith mini 5 programP3 = .next t ∧ t.run = .halted (.unknownOpcode true 0x11 0x0108) :=
  ⟨⟨_, rfl, rfl⟩, ⟨_, rfl, rfl⟩, ⟨_, rfl, rfl⟩⟩

theorem witness_ConsumedLengthIsDeclaredLength :
    mini.WF ∧ ∃ r, recordWith mini (stateAt 0xFFFC [0x3E]) = some r ∧ 0xFFFC + r.descriptor.bytes < 0xFFFF := by
  refine ⟨?_, _, rfl, by decide⟩
  have h : ∀ (prefixed : Bool) (op : Byte),
      (mini.lookup prefixed op).all (fun d => d.bytes == opcodeLength prefixed + d.inlineLength) = true := by decide
  intro prefixed op d hd
  have := h prefixed op
  rw [hd] at this
  simpa using this

theorem witness_ReferenceCatalogIsWellFormed :
    (∃ d, refCat.lookup false 0xC3 = some d) ∧ ∃ d, refCat.lookup true 0xFF = some d := ⟨⟨_, rfl⟩, ⟨_, rfl⟩⟩

/-- The longest image that fits, and one byte more (vectors W4, W5). -/
theorem witness_LoadProgramPlacesTheImage_and_BootOrder :
    State.new.mem.wf ∧ (List.replicate 0xFF00 (0x00 : Byte)).length + 0x100 ≤ 0x10000 ∧
    (List.replicate 0xFF01 (0x00 : Byte)).length + 0x100 > 0x10000 ∧
    (∃ cat, loadCatalog referenceKeyFormat (sourceOf goodEntry) = .ok cat) ∧
    ∃ e, loadCatalog referenceKeyFormat .unreadable = .error e := by
  refine ⟨by decide, ?_, ?_, ⟨_, rfl⟩, ⟨_, rfl⟩⟩
  · rw [List.length_replicate]
  · rw [List.length_replicate]
    omega

theorem witness_FlagAccessors : Reg8.a ≠ .f := by decide

/-- A table of one good record, which is malformed nowhere, and its load. -/
theorem witness_CatalogLoadIsWhole :
    (∀ key field, ¬ MalformedTable referenceKeyFormat { unprefixed := .present [goodEntry], cbprefixed := .present [] }
      key field) ∧
    ∃ cat d, loadCatalog referenceKeyFormat (sourceOf goodEntry) = .ok cat ∧ cat.lookup false 0x3E = some d := by
  refine ⟨fun key field h => ?_, _, _, rfl, rfl⟩
  cases h with
  | unprefixed h => exact h _ rfl
  | cbprefixed h => exact h _ rfl
  | record h he hm =>
    rcases h with h | h <;> cases h
    · obtain rfl := List.mem_singleton.mp he
      cases hm with
      | key h => cases h
      | mnemonic h => exact h _ rfl
      | bytes h => exact absurd (h 2 rfl) (by decide)
      | cycles h => exact absurd (h [8] rfl) (by simp [malformedCycles])
      | operands h => exact h _ rfl
      | operand h ho hbad =>
        cases h
        simp only [List.mem_cons, List.not_mem_nil, or_false] at ho
        rcases ho with rfl | rfl <;> rcases hbad with h | h | h | ⟨h, hn⟩
        all_goals first | exact h _ rfl | cases h
        exact absurd hn (by decide)
      | immediate h => exact h _ rfl
      | flags h => exact h _ rfl
      | flag h hbad =>
        cases h
        rcases hbad with h | h | h | h <;> exact h _ rfl
    · cases he

/-- A missing collection, and a record that breaks each field in turn. -/
theorem witness_MalformedRecordFailsTheLoad :
    MalformedTable referenceKeyFormat { unprefixed := .absent, cbprefixed := .present [] } "" "unprefixed" ∧
    MalformedTable referenceKeyFormat { unprefixed := .present [], cbprefixed := .mistyped } "" "cbprefixed" ∧
    MalformedTable referenceKeyFormat
      { unprefixed := .present [], cbprefixed := .present [{ goodEntry with bytes := .present 0 }] } "0x3E" "bytes" ∧
    MalformedField referenceKeyFormat { goodEntry with key := "0xG1" } "key" ∧
    MalformedField referenceKeyFormat { goodEntry with mnemonic := .absent } "mnemonic" ∧
    MalformedField referenceKeyFormat { goodEntry with cycles := .present [4, 8, 12] } "cycles" ∧
    MalformedField referenceKeyFormat { goodEntry with cycles := .present [-1] } "cycles" ∧
    MalformedField referenceKeyFormat { goodEntry with operands := .absent } "operands" ∧
    MalformedField referenceKeyFormat { goodEntry with
      operands := .present [{ name := .present "n8", bytes := .present (-1), immediate := .present true }] }
      "operands.bytes" ∧
    MalformedField referenceKeyFormat { goodEntry with immediate := .mistyped } "immediate" ∧
    MalformedField referenceKeyFormat { goodEntry with flags := .absent } "flags" ∧
    (∃ error, loadCatalog referenceKeyFormat (sourceOf { goodEntry with mnemonic := .absent }) = .error error) := by
  refine ⟨.unprefixed nofun, .cbprefixed nofun,
    .record (e := { goodEntry with bytes := .present 0 }) (.inr rfl) (List.mem_singleton_self _) (.bytes ?_),
    .key rfl, .mnemonic nofun, .cycles ?_, .cycles ?_, .operands nofun,
    .operand rfl (List.mem_singleton_self _) (.negative rfl (by decide)), .immediate nofun, .flags nofun, _, rfl⟩
  · intro n h
    cases h
    decide
  · intro cs h
    cases h
    exact .inl (by decide)
  · intro cs h
    cases h
    exact .inr ⟨-1, by simp, by decide⟩

end Sys2Proof.Tests
end

section
/-! SUPPORT. The frame of an instruction, from the three parts of the state that its answer shares with the state before. -/

namespace Sys2Proof.Claims

open Sys2Proof.Machine

/-- Registers, pairs and flags read `regs` only, and memory reads `mem` only. -/
theorem onlyPcAndRun_of_regs_sp_mem {s t : State} (hregs : t.regs = s.regs) (hsp : t.sp = s.sp) (hmem : t.mem = s.mem) :
    onlyPcAndRun s t := by
  have hread8 : ∀ r, t.read8 r = s.read8 r := fun r => by rw [State.read8, State.read8, hregs]
  have hread16 : ∀ p, t.read16 p = s.read16 p := fun p => by simp only [State.read16, hread8]
  have hflag : ∀ f, t.testFlag f = s.testFlag f := fun f => by simp only [State.testFlag, hread8]
  have hmemRead : ∀ a, t.memRead a = s.memRead a := fun a => by simp only [State.memRead, hmem]
  exact ⟨hread8, hread16, hflag, hsp, hmemRead, hregs, hmem⟩

/-- Settles O25: by `exec_next`, an instruction of any form that answers a next state keeps `regs`, `sp` and `mem`. -/
theorem instructionFrame : Obligations.InstructionFrame := by
  intro i s t h
  obtain ⟨hregs, hsp, hmem, -⟩ := exec_next h
  exact onlyPcAndRun_of_regs_sp_mem hregs hsp hmem

end Sys2Proof.Claims
end

section
/-! SUPPORT. The low nibble of F, and the bits of F that the four flags are (10_state.md R24). -/

namespace Sys2Proof.Machine

/-- F is masked at the read: its low nibble is zero whatever the register file holds (10_state.md R24). -/
@[simp] theorem read8_f_lowNibble (s : State) : s.read8 .f &&& 0x0F#8 = 0#8 := by
  have hmask : flagMask &&& 0x0F#8 = 0#8 := by decide
  calc s.read8 .f &&& 0x0F#8
      = s.regs.f &&& (flagMask &&& 0x0F#8) := BitVec.and_assoc ..
    _ = 0#8 := by rw [hmask, BitVec.and_zero]

/-- The low nibble of a pair is the low nibble of its second-named register (10_state.md R22). -/
theorem read16_lowNibble (s : State) (p : RegPair) :
    s.read16 p &&& 0x000F#16 = 0#8 ++ (s.read8 p.low &&& 0x0F#8) := by
  calc s.read16 p &&& 0x000F#16
      = (s.read8 p.high ++ s.read8 p.low) &&& (0x00#8 ++ 0x0F#8) := rfl
    _ = 0#8 ++ (s.read8 p.low &&& 0x0F#8) := by rw [BitVec.and_append, BitVec.and_zero]

/-- Every flag is a bit of F's top nibble (10_state.md R24). -/
theorem Flag.bit_mem_topNibble (f : Flag) : 4 ≤ f.bit ∧ f.bit ≤ 7 := by
  cases f <;> decide

/-- No two flags share a bit (10_state.md R24). -/
theorem Flag.bit_injective : Function.Injective Flag.bit := by
  intro g f
  cases g <;> cases f <;> decide

end Sys2Proof.Machine

namespace Sys2Proof.Claims

open Sys2Proof.Machine

/-- Settles O52: the flags are distinct bits of the top nibble, and F's mask at the read clears the low nibble that AF
shares. -/
theorem flagRegisterLayout : Obligations.FlagRegisterLayout := by
  intro s
  have haf : s.read16 .af &&& 0x000F#16 = 0#16 := by
    rw [read16_lowNibble, RegPair.low, read8_f_lowNibble]
    rfl
  refine ⟨fun f => ?_, read8_f_lowNibble s, haf⟩
  obtain ⟨hlow, hhigh⟩ := f.bit_mem_topNibble
  exact ⟨hlow, hhigh, rfl, fun _ h => Flag.bit_injective h⟩

end Sys2Proof.Claims
end

section
/-! SUPPORT. The frame of a run: `onlyPcAndRun` holds of each step, and it is reflexive and transitive. -/

namespace Sys2Proof.Machine

/-- A run of `n + 1` steps that answers a next state is a step followed by a run of `n` steps. -/
theorem runWith_succ_next {cat : Catalog} {n : Nat} {s t : State} (h : runWith cat (n + 1) s = .next t) :
    ∃ u, stepWith cat s = .next u ∧ runWith cat n u = .next t := by
  rw [runWith] at h
  cases hstep : stepWith cat s with
  | next u => rw [hstep] at h; exact ⟨u, rfl, h⟩
  | fault f => rw [hstep] at h; cases h
  | refused r => rw [hstep] at h; cases h

end Sys2Proof.Machine

namespace Sys2Proof.Claims

open Sys2Proof.Machine

theorem onlyPcAndRun_refl (s : State) : onlyPcAndRun s s :=
  onlyPcAndRun_of_regs_sp_mem rfl rfl rfl

theorem onlyPcAndRun_trans {s t u : State} (hst : onlyPcAndRun s t) (htu : onlyPcAndRun t u) : onlyPcAndRun s u := by
  obtain ⟨-, -, -, hsp, -, hregs, hmem⟩ := hst
  obtain ⟨-, -, -, hsp', -, hregs', hmem'⟩ := htu
  exact onlyPcAndRun_of_regs_sp_mem (hregs'.trans hregs) (hsp'.trans hsp) (hmem'.trans hmem)

/-- The frame of a step is the frame of the instruction that it runs (40_decode_loop.md R109). -/
theorem onlyPcAndRun_of_stepWith {cat : Catalog} {s t : State} (h : stepWith cat s = .next t) : onlyPcAndRun s t := by
  obtain ⟨-, i, _, -, hexec⟩ := stepWith_next h
  exact instructionFrame i s t hexec

/-- Settles O40, by induction on the number of steps: each step has the frame, and frames compose. -/
theorem memoryIsConstantDuringARun : Obligations.MemoryIsConstantDuringARun := by
  intro cat n
  induction n with
  | zero =>
    intro s t h
    cases h
    exact onlyPcAndRun_refl s
  | succ n ih =>
    intro s t h
    obtain ⟨u, hstep, hrun⟩ := runWith_succ_next h
    exact onlyPcAndRun_trans (onlyPcAndRun_of_stepWith hstep) (ih u t hrun)

end Sys2Proof.Claims
end

section
/-! SUPPORT. What a step does to `run`, beside its frame. -/

namespace Sys2Proof.Machine

/-- A step leaves `run` alone or halts, as the instruction that it runs does. -/
theorem run_of_stepWith {cat : Catalog} {s t : State} (h : stepWith cat s = .next t) :
    t.run = s.run ∨ ∃ reason, t.run = .halted reason := by
  obtain ⟨-, i, _, -, hexec⟩ := stepWith_next h
  obtain ⟨-, -, -, _, -, -, ⟨hrun, -⟩ | ⟨hrun, -⟩ | ⟨_, _, hrun⟩⟩ := exec_next hexec
  · exact .inl hrun
  · exact .inr ⟨_, hrun⟩
  · exact .inr ⟨_, hrun⟩

end Sys2Proof.Machine

namespace Sys2Proof.Claims

open Sys2Proof.Machine

/-- Settles O24: the step's frame is its instruction's, and so is what it does to `run`. -/
theorem stepWritesOnlyPcAndRun : Obligations.StepWritesOnlyPcAndRun := by
  intro cat s t h
  exact ⟨onlyPcAndRun_of_stepWith h, run_of_stepWith h⟩

end Sys2Proof.Claims
end

section
/-! SUPPORT. The advance of the pc on each side of the limit (40_decode_loop.md R110), and the step of an unprefixed mapped
opcode (R117) whose operands are all without a static length. -/

namespace Sys2Proof.Machine

theorem advance_of_lt_limit {s : State} {n : Nat} (h : s.pc.toNat + n < 0xFFFF) :
    s.advance n = { s with pc := s.pc + BitVec.ofNat 16 n } := by
  have hpc : writeBackPc (s.pc.toNat + n) = s.pc + BitVec.ofNat 16 n := by
    apply BitVec.eq_of_toNat_eq
    rw [toNat_writeBackPc, BitVec.toNat_add, BitVec.toNat_ofNat]
    omega
  rw [advance_eq, hpc, if_neg (Nat.not_le.mpr h)]

theorem advance_of_limit_le {s : State} {n : Nat} (h : 0xFFFF ≤ s.pc.toNat + n) :
    s.advance n = { s with pc := 0xFFFF#16, run := .halted .pcOverflow } := by
  have hpc : writeBackPc (s.pc.toNat + n) = 0xFFFF#16 := by rw [writeBackPc, Nat.min_eq_right h]
  rw [advance_eq, hpc, if_pos h]

/-- The step at an opcode that the catalog maps in the unprefixed space. -/
theorem stepWith_unprefixedMapped {cat : Catalog} {s : State} {o : Byte} {d : Descriptor} (hrun : s.run = .running)
    (hm : s.memRead s.pc.toNat = some o) (ho : o ≠ 0xCB) (hd : cat.unprefixed o = some d) :
    stepWith cat s = .next (s.advance (1 + d.inlineLength)) := by
  have hl : cat.lookup false o = some d := hd
  rw [stepWith_running hrun, decodeWith_unprefixed cat hm ho, decodeUnprefixedWith, hl]
  rfl

theorem exec_nop (s : State) : exec .nop s = .next (s.advance 1) := rfl

end Sys2Proof.Machine

namespace Sys2Proof.Claims

open Sys2Proof.Machine

/-- The model's recursive sum is the rule's sum of the static lengths that are present (30_encoding.md R72). -/
theorem inlineLength_eq_inlineSum (d : Descriptor) : d.inlineLength = inlineSum d := by
  rw [Descriptor.inlineLength, inlineSum]
  induction d.operands with
  | nil => rfl
  | cons o os ih => cases hb : o.bytes <;> simp [staticLength, hb, ih]

/-- Settles O15: the step and NOP both advance by 1, which reaches the limit at 0xFFFE and not below it. -/
theorem noOperationConsumesOneByte : Obligations.NoOperationConsumesOneByte := by
  intro cat s d hrun _ hm hd hsum
  have hstep : stepWith cat s = .next (s.advance 1) := by
    rw [stepWith_unprefixedMapped hrun hm (by decide) hd, inlineLength_eq_inlineSum, hsum]
  rw [hstep, exec_nop]
  refine ⟨fun hlt => ?_, fun heq => ?_⟩
  · have hadvance : s.advance 1 = { s with pc := s.pc + 1 } := advance_of_lt_limit (by omega)
    rw [hadvance]
    exact ⟨rfl, rfl⟩
  · rw [advance_of_limit_le (by omega)]
    exact ⟨rfl, rfl⟩

end Sys2Proof.Claims
end

section
/-! SUPPORT. `load_program` on each side of the limit, and what memory reads after it (42_state_operations.md R171,
R172). -/

namespace Sys2Proof.Machine

theorem loadProgram_of_tooLarge {s : State} {img : List Byte} (h : img.length + 0x100 > 0x10000) :
    s.loadProgram img = .error .romTooLarge :=
  if_pos h

theorem loadProgram_of_fits {s : State} {img : List Byte} (h : img.length + 0x100 ≤ 0x10000) :
    s.loadProgram img = .ok { s with mem := s.mem.writeBytes 0x100 img } :=
  if_neg (Nat.not_lt.mpr h)

/-- Inside the bytes that were written, memory reads the written byte. -/
theorem read_writeBytes_inside {m : Memory} {vs : List Byte} {a i : Nat} (ha : a + vs.length ≤ 0x10000) (hm : m.wf)
    (hi : i < vs.length) : (m.writeBytes a vs).read (a + i) = vs[i] := by
  rw [read_writeBytes ha hm, if_pos (Nat.le_add_right a i), Nat.add_sub_cancel_left, List.getElem?_eq_getElem hi,
    Option.getD_some]

/-- Below and above the bytes that were written, memory reads as before. -/
theorem read_writeBytes_outside {m : Memory} {vs : List Byte} {a b : Nat} (ha : a + vs.length ≤ 0x10000) (hm : m.wf)
    (hb : b < a ∨ a + vs.length ≤ b) : (m.writeBytes a vs).read b = m.read b := by
  rw [read_writeBytes ha hm]
  rcases hb with hlt | hge
  · exact if_neg (Nat.not_le.mpr hlt)
  · have hnone : vs[b - a]? = none := List.getElem?_eq_none (by omega)
    rw [hnone, Option.getD_none, ite_self]

end Sys2Proof.Machine

namespace Sys2Proof.Claims

open Sys2Proof.Machine

/-- Settles O48: an image over the limit takes the error branch, which has no state. -/
theorem loadProgramRefusesATooLargeImage : Obligations.LoadProgramRefusesATooLargeImage := by
  intro s img h
  exact loadProgram_of_tooLarge h

/-- Settles O47: the load writes the image's bytes from 0x0100 on, and a read after these writes is inside or outside
them. -/
theorem loadProgramPlacesTheImage : Obligations.LoadProgramPlacesTheImage := by
  intro s img hm
  refine ⟨loadProgram_of_tooLarge, fun hfits => ⟨_, loadProgram_of_fits hfits, ?_⟩⟩
  have hroom : 0x100 + img.length ≤ 0x10000 := by omega
  refine ⟨fun i hi => ?_, fun a ha => ?_, rfl, rfl, rfl, rfl, wf_writeBytes hroom hm⟩
  · have haddr : 0x100 + i < Config.memSize := Nat.lt_of_lt_of_le (Nat.add_lt_add_left hi _) hroom
    rw [State.memRead, if_pos haddr, read_writeBytes_inside hroom hm hi, List.getElem?_eq_getElem hi]
  · rw [State.memRead, State.memRead, read_writeBytes_outside hroom hm ha]

end Sys2Proof.Claims
end

section
/-! SUPPORT. What masking with `flagMask` leaves of a byte (10_state.md R24). -/

namespace Sys2Proof.Machine

/-- Masking keeps the top nibble and puts zeros below it: the mask is all ones beside all zeros, and `&&&` goes nibble by
nibble. -/
theorem and_flagMask (v : Byte) : v &&& flagMask = v.extractLsb' 4 4 ++ 0#4 := by
  have hnibbles : v.extractLsb' 4 4 ++ v.extractLsb' 0 4 = v :=
    (BitVec.extractLsb'_append_extractLsb'_eq_extractLsb' rfl).trans BitVec.extractLsb'_eq_self
  calc v &&& flagMask
      = (v.extractLsb' 4 4 ++ v.extractLsb' 0 4) &&& (BitVec.allOnes 4 ++ 0#4) := by rw [hnibbles]; rfl
    _ = v.extractLsb' 4 4 ++ 0#4 := by rw [BitVec.and_append, BitVec.and_allOnes, BitVec.and_zero]

end Sys2Proof.Machine

namespace Sys2Proof.Claims

open Sys2Proof.Machine

/-- Settles O49: seven registers read as stored, and F through its mask. -/
theorem registerReads : Obligations.RegisterReads := by
  intro s
  exact ⟨rfl, rfl, rfl, rfl, rfl, rfl, rfl, and_flagMask s.regs.f⟩

end Sys2Proof.Claims
end

section
/-! SUPPORT. Each instruction is found in the decoding tables under its own opcode, and its operand bytes are read back
(30_encoding.md R70 to R73, 41_catalog.md R154, R155). -/

namespace Sys2Proof

/-- The values of a three-bit field, for a split into its eight cases. -/
theorem threeBits_cases (n : BitVec 3) : n = 0 ∨ n = 1 ∨ n = 2 ∨ n = 3 ∨ n = 4 ∨ n = 5 ∨ n = 6 ∨ n = 7 := by
  revert n
  decide

/-- A cell of the decoding grid gives the instruction `i` for some operand bytes. -/
def Row.Yields (i : Instr) : Row → Prop
  | .len1 j => j = i
  | .len2 f => ∃ b, f b = i
  | .len3 f => ∃ b c, f b c = i

/-- Every well-formed unprefixed row of REF_CAT is in the grid under its opcode. `LD [HL],[HL]` is not: it is not well
formed. -/
theorem rowsUnprefixed_yields {i : Instr} (href : i.isReference = true) (hun : i.prefixed = false) (hwf : i.wf = true) :
    ∃ row, rowsUnprefixed[i.opcode.toNat]? = some row ∧ row.Yields i := by
  cases i with
  | ldR8R8 dst src => cases dst <;> cases src <;> first | exact ⟨_, rfl, rfl⟩ | cases hwf
  | rst target => rcases threeBits_cases target with rfl | rfl | rfl | rfl | rfl | rfl | rfl | rfl <;> exact ⟨_, rfl, rfl⟩
  | ldMemA r | ldAMem r | pushPair r | popPair r | incR16 r | decR16 r | incR8 r | decR8 r | addHlR16 r | addR8 r
  | adcR8 r | subR8 r | sbcR8 r | andR8 r | xorR8 r | orR8 r | cpR8 r | retCond r => cases r <;> exact ⟨_, rfl, rfl⟩
  | ldR8N8 r b | jrCondE8 r b => cases r <;> exact ⟨_, rfl, b, rfl⟩
  | ldR16N16 r b c | jpCondA16 r b c | callCondA16 r b c => cases r <;> exact ⟨_, rfl, b, c, rfl⟩
  | ldHlSpE8 b | ldhA8A b | ldhAA8 b | addSpE8 b | addN8 b | adcN8 b | subN8 b | sbcN8 b | andN8 b | xorN8 b | orN8 b
  | cpN8 b | jrE8 b | stopN8 b => exact ⟨_, rfl, b, rfl⟩
  | ldA16Sp b c | ldA16A b c | ldAA16 b c | jpA16 b c | callA16 b c => exact ⟨_, rfl, b, c, rfl⟩
  | unprefixedMapped | unprefixedUnknown | escape | cbMapped | cbUnknown => cases href
  | rlc | rrc | rl | rr | sla | sra | swap | srl | bit | res | setBit => cases hun
  | _ => exact ⟨_, rfl, rfl⟩

/-- Every CB row of REF_CAT is what its opcode decodes to. -/
theorem decodeCb_opcode {i : Instr} (href : i.isReference = true) (hcb : i.prefixed = true) : decodeCb i.opcode = i := by
  cases i with
  | rlc r | rrc r | rl r | rr r | sla r | sra r | swap r | srl r => cases r <;> rfl
  | bit n r | res n r | setBit n r =>
    rcases threeBits_cases n with rfl | rfl | rfl | rfl | rfl | rfl | rfl | rfl <;> cases r <;> rfl
  | cbMapped | cbUnknown => cases href
  | _ => cases hcb

/-- Of the conditions of `wf`, the order of the operand bytes is asked of every instruction. -/
theorem presentFirst_inline {i : Instr} (h : i.wf = true) : presentFirst i.inline = true := by
  cases i with
  | unprefixedMapped op d inline | cbMapped op d inline =>
    simp only [Instr.wf, Bool.and_eq_true] at h
    exact h.2
  | ldR16N16 | ldA16Sp | ldA16A | ldAA16 | jpA16 | jpCondA16 | callA16 | callCondA16 => exact h
  | ldR8N8 _ b | ldHlSpE8 b | ldhA8A b | ldhAA8 b | addSpE8 b | addN8 b | adcN8 b | subN8 b | sbcN8 b | andN8 b | xorN8 b
  | orN8 b | cpN8 b | jrE8 b | jrCondE8 _ b | stopN8 b => cases b <;> rfl
  | _ => rfl

/-- For a row of REF_CAT `wf` asks nothing else but that it is not `LD [HL],[HL]`. -/
theorem wf_of_presentFirst {i : Instr} (href : i.isReference = true) (hld : i ≠ .ldR8R8 .hlMem .hlMem)
    (hinline : presentFirst i.inline = true) : i.wf = true := by
  cases i with
  | ldR8R8 dst src => cases dst <;> cases src <;> first | rfl | exact absurd rfl hld
  | ldR16N16 | ldA16Sp | ldA16A | ldAA16 | jpA16 | jpCondA16 | callA16 | callCondA16 => exact hinline
  | unprefixedMapped | unprefixedUnknown | cbMapped => cases href
  | _ => rfl

theorem Row.read_snd (row : Row) (bs : List Byte) : (row.read bs).2 = (takeInline row.size bs).2 := by
  cases row with
  | len1 i => rfl
  | len2 f => cases bs <;> rfl
  | len3 f => rcases bs with _ | ⟨b, _ | ⟨c, bs⟩⟩ <;> rfl

/-- A cell reads back the operand bytes of an instruction that it gives. -/
theorem Row.read_inline {op : Byte} {row : Row} {i : Instr} {rest : List Byte} (hm : row.Matches op) (hy : row.Yields i)
    (hwf : i.wf = true) (hc : i.complete = true ∨ rest = []) :
    row.read (i.inline.reduceOption ++ rest) = (i, rest) := by
  have hp := presentFirst_inline hwf
  cases row with
  | len1 j =>
    obtain rfl : j = i := hy
    obtain ⟨-, -, hinline, -⟩ := hm
    simp [hinline, Row.read]
  | len2 f =>
    obtain ⟨b, rfl⟩ := hy
    obtain ⟨-, -, hinline, -⟩ := hm b
    rw [Instr.complete, hinline] at hc
    cases b with
    | some b => simp [hinline, Row.read]
    | none => simp_all [Row.read]
  | len3 f =>
    obtain ⟨b, c, rfl⟩ := hy
    obtain ⟨-, -, hinline, -⟩ := hm b c
    rw [Instr.complete, hinline] at hc
    rw [hinline] at hp
    rcases b with _ | b <;> rcases c with _ | c
    · simp_all [Row.read]
    · cases hp
    · simp_all [Row.read]
    · simp [hinline, Row.read]

/-! ## encode and decode -/

theorem decode_unprefixed {op : Byte} (h : op ≠ Config.escapeByte) (bs : List Byte) :
    decode (op :: bs) = .ok (decodeUnprefixed op bs) :=
  if_neg h

theorem decodeUnprefixed_of_row {op : Byte} {row : Row} (h : rowsUnprefixed[op.toNat]? = some row) (bs : List Byte) :
    decodeUnprefixed op bs = row.read bs := by
  rw [decodeUnprefixed, h]

theorem encode_prefixed {i : Instr} (h : i.prefixed = true) :
    encode i = Config.escapeByte :: i.opcode :: i.inline.reduceOption := by
  simp [encode, Instr.opcodeBytes, h]

theorem encode_unprefixed {i : Instr} (h : i.prefixed = false) : encode i = i.opcode :: i.inline.reduceOption := by
  simp [encode, Instr.opcodeBytes, h]

/-- A row of REF_CAT under the escape byte has no operand bytes. -/
theorem inline_of_prefixed {i : Instr} (href : i.isReference = true) (hcb : i.prefixed = true) : i.inline = [] := by
  obtain ⟨-, -, hinline, -⟩ := decodeCb_matches i.opcode
  rwa [decodeCb_opcode href hcb] at hinline

/-- The escape byte is the opcode of no unprefixed row: its cell of the grid is the escape (30_encoding.md R75). -/
theorem opcode_ne_escapeByte {i : Instr} (href : i.isReference = true) (hun : i.prefixed = false) (hwf : i.wf = true) :
    i.opcode ≠ Config.escapeByte := by
  intro hop
  obtain ⟨row, hrow, hy⟩ := rowsUnprefixed_yields href hun hwf
  have hcell : rowsUnprefixed[i.opcode.toNat]? = some (.len1 .escape) := by rw [hop]; rfl
  cases hrow.symm.trans hcell
  obtain rfl : Instr.escape = i := hy
  cases href

theorem isReference_of_cb2 {i : Instr} (h : i.format = .cb2) : i.isReference = true := by
  rw [Instr.isReference, h]

end Sys2Proof

namespace Sys2Proof.Claims

/-- Settles O4: the first byte chooses the table, the opcode finds the instruction's own cell there, and the cell reads its
operand bytes back. -/
theorem decodeOfEncodeReference : Obligations.DecodeOfEncodeReference := by
  intro i rest href hwf hc
  cases hp : i.prefixed with
  | true =>
    rw [encode_prefixed hp, inline_of_prefixed href hp]
    show Except.ok (decodeCb i.opcode, rest) = _
    rw [decodeCb_opcode href hp]
  | false =>
    have hop := opcode_ne_escapeByte href hp hwf
    obtain ⟨row, hrow, hy⟩ := rowsUnprefixed_yields href hp hwf
    obtain ⟨row', hrow', hm⟩ := rowsUnprefixed_matches i.opcode hop
    cases hrow.symm.trans hrow'
    rw [encode_unprefixed hp, List.cons_append, decode_unprefixed hop, decodeUnprefixed_of_row hrow,
      Row.read_inline hm hy hwf hc]

end Sys2Proof.Claims

namespace Sys2Proof

/-- What the decoder reads at a byte that is not the escape: the row of REF_CAT with that opcode, well formed, with the
next bytes as its operand bytes. -/
theorem decodeUnprefixed_spec {op : Byte} {bs rest : List Byte} {i : Instr} (h : op ≠ Config.escapeByte)
    (hd : decodeUnprefixed op bs = (i, rest)) :
    ∃ n, i.prefixed = false ∧ i.opcode = op ∧ i.inline = (takeInline n bs).1 ∧ rest = (takeInline n bs).2 ∧
      i.isReference = true ∧ i.wf = true := by
  obtain ⟨row, hrow, hm⟩ := rowsUnprefixed_matches op h
  obtain ⟨hun, hop, hinline, href⟩ := hm.read bs
  have hrest := row.read_snd bs
  rw [decodeUnprefixed_of_row hrow] at hd
  simp only [hd] at hun hop hinline href hrest
  obtain ⟨-, hpresent, -⟩ := takeInline_append row.size bs
  -- The cell that `LD [HL],[HL]` would have is HALT's.
  have hld : i ≠ .ldR8R8 .hlMem .hlMem := by
    rintro rfl
    have hcell : rowsUnprefixed[op.toNat]? = some (.len1 .halt) := by rw [← hop]; rfl
    cases hrow.symm.trans hcell
    cases hd
  exact ⟨row.size, hun, hop, hinline, hrest, href, wf_of_presentFirst href hld (by rwa [hinline])⟩

/-- What the decoder reads after the escape byte: the CB row of REF_CAT with that opcode. -/
theorem decodeCb_spec (op : Byte) :
    (decodeCb op).prefixed = true ∧ (decodeCb op).opcode = op ∧ (decodeCb op).inline = [] ∧
    (decodeCb op).isReference = true ∧ (decodeCb op).wf = true := by
  obtain ⟨hcb, hop, hinline, hformat⟩ := decodeCb_matches op
  have hld : decodeCb op ≠ .ldR8R8 .hlMem .hlMem := by
    intro hi
    rw [hi] at hcb
    cases hcb
  exact ⟨hcb, hop, hinline, isReference_of_cb2 hformat,
    wf_of_presentFirst (isReference_of_cb2 hformat) hld (by rw [hinline]; rfl)⟩

end Sys2Proof

namespace Sys2Proof.Claims

/-- Settles O5, by the three ways to decode: the escape with nothing after it, a CB row, and an unprefixed row, whose
operand bytes and the bytes left over make up the input. -/
theorem encodeOfDecodeReference : Obligations.EncodeOfDecodeReference := by
  intro bs rest i h
  rcases bs with _ | ⟨b, bs⟩
  · cases h
  by_cases hb : b = Config.escapeByte
  · subst hb
    rcases bs with _ | ⟨op, bs⟩
    · cases h
      exact ⟨rfl, rfl, .inr rfl, .inl rfl⟩
    · cases h
      obtain ⟨hcb, hop, hinline, href, hwf⟩ := decodeCb_spec op
      refine ⟨?_, hwf, .inl href, .inl ?_⟩
      · rw [encode_prefixed hcb, hop, hinline]
        rfl
      · rw [Instr.complete, hinline]
        rfl
  · rw [decode_unprefixed hb] at h
    obtain ⟨n, hun, hop, hinline, rfl, href, hwf⟩ := decodeUnprefixed_spec hb (Except.ok.inj h)
    obtain ⟨happend, -, hcomplete⟩ := takeInline_append n bs
    refine ⟨?_, hwf, .inl href, ?_⟩
    · rw [encode_unprefixed hun, hop, hinline, List.cons_append, happend]
    · rwa [Instr.complete, hinline]

end Sys2Proof.Claims
end

section
/-! SUPPORT. The grid of REF_CAT and the typed rows (41_catalog.md R154 to R157). -/

namespace Sys2Proof.Machine

open Sys2Proof.Claims

/-- The grid of a space of REF_CAT, by opcode. -/
def grid (prefixed : Bool) : List Cell :=
  if prefixed then gridCb else gridUnprefixed

theorem refCat_lookup (prefixed : Bool) (op : Byte) :
    refCat.lookup prefixed op = (grid prefixed)[op.toNat]?.map (refDescriptor prefixed op) := by
  cases prefixed <;> rfl

@[simp] theorem cells8_length (mnemonic : String) (first : List String) : (cells8 mnemonic first).length = 8 := rfl

theorem grid_length (prefixed : Bool) : (grid prefixed).length = 256 := by
  cases prefixed with
  | false =>
    have hlow : gridLow.length = 64 := rfl
    have hhigh : gridHigh.length = 64 := rfl
    simp [grid, gridUnprefixed, hlow, gridLoads, gridAlu, hhigh]
  | true => simp [grid, gridCb, shiftNames, bitNames]

theorem refOperands_map_name (prefixed : Bool) (op : Byte) (k : Nat) (os : List (String × Option Nat)) :
    (refOperands prefixed op k os).map (fun o => o.name) = os.map Prod.fst := by
  induction os generalizing k with
  | nil => rfl
  | cons o os ih => simp [refOperands, ih]

theorem refOperands_filterMap_bytes (prefixed : Bool) (op : Byte) (k : Nat) (os : List (String × Option Nat)) :
    (refOperands prefixed op k os).filterMap (fun o => o.bytes) = os.filterMap Prod.snd := by
  induction os generalizing k with
  | nil => rfl
  | cons o os ih => simp [refOperands, List.filterMap_cons, ih]

/-- What a cell of the grid says of an instruction: its mnemonic, its operand names and how many operand bytes it has. -/
def cellOf (cell : Cell) (i : Instr) : Prop :=
  cell.1 = i.tableMnemonic ∧ cell.2.map Prod.fst = i.operandNames ∧ (cell.2.filterMap Prod.snd).sum = i.inline.length

/-- The cell of an instruction's opcode is the instruction's own: the two tables of REF_CAT agree row by row. -/
theorem grid_cellOf {i : Instr} (href : i.isReference = true) (hwf : i.wf = true) :
    ∃ cell, (grid i.prefixed)[i.opcode.toNat]? = some cell ∧ cellOf cell i := by
  cases i with
  | ldR8R8 dst src => cases dst <;> cases src <;> first | exact ⟨_, rfl, rfl, rfl, rfl⟩ | cases hwf
  | rst target =>
    rcases threeBits_cases target with rfl | rfl | rfl | rfl | rfl | rfl | rfl | rfl <;> exact ⟨_, rfl, rfl, rfl, rfl⟩
  | ldMemA r | ldAMem r | pushPair r | popPair r | incR16 r | decR16 r | incR8 r | decR8 r | addHlR16 r | addR8 r
  | adcR8 r | subR8 r | sbcR8 r | andR8 r | xorR8 r | orR8 r | cpR8 r | retCond r | ldR8N8 r | jrCondE8 r | ldR16N16 r
  | jpCondA16 r | callCondA16 r | rlc r | rrc r | rl r | rr r | sla r | sra r | swap r | srl r =>
    cases r <;> exact ⟨_, rfl, rfl, rfl, rfl⟩
  | bit n r | res n r | setBit n r =>
    rcases threeBits_cases n with rfl | rfl | rfl | rfl | rfl | rfl | rfl | rfl <;> cases r <;>
      exact ⟨_, rfl, rfl, rfl, rfl⟩
  | unprefixedMapped | unprefixedUnknown | escape | cbMapped | cbUnknown => cases href
  | _ => exact ⟨_, rfl, rfl, rfl, rfl⟩

end Sys2Proof.Machine

namespace Sys2Proof.Claims

open Sys2Proof.Machine

/-- Settles O46: each of the two grids has 256 cells. -/
theorem referenceCatalogMapsEveryKey : Obligations.ReferenceCatalogMapsEveryKey := by
  intro prefixed op
  have hlt : op.toNat < (grid prefixed).length := by rw [grid_length]; exact op.isLt
  rw [refCat_lookup, List.getElem?_eq_getElem hlt]
  rfl

/-- Settles O45: an entry is the descriptor of its cell, which declares just this length. -/
theorem referenceCatalogIsWellFormed : Obligations.ReferenceCatalogIsWellFormed := by
  intro prefixed op d hd
  rw [refCat_lookup, Option.map_eq_some_iff] at hd
  obtain ⟨cell, -, rfl⟩ := hd
  rw [← inlineLength_eq_inlineSum]
  rfl

/-- Settles O8: the entry is the descriptor of the instruction's own cell, and takes its names and lengths from it. -/
theorem referenceRowsMatchTheGrid : Obligations.ReferenceRowsMatchTheGrid := by
  intro i href hwf
  obtain ⟨cell, hcell, hmnemonic, hnames, hsum⟩ := grid_cellOf href hwf
  have hlookup : refCat.lookup i.prefixed i.opcode = some (refDescriptor i.prefixed i.opcode cell) := by
    rw [refCat_lookup, hcell, Option.map_some]
  have hinline : inlineSum (refDescriptor i.prefixed i.opcode cell) = i.inline.length := by
    rw [← hsum]
    exact congrArg List.sum (refOperands_filterMap_bytes ..)
  refine ⟨_, hlookup, hmnemonic, (refOperands_map_name ..).trans hnames, hinline, ?_⟩
  rw [referenceCatalogIsWellFormed _ _ _ hlookup, hinline]
  rfl

end Sys2Proof.Claims
end

section
/-! SUPPORT. The rows that the decoder answers under a catalog (30_encoding.md R77), and those of a few words of the
table. -/

namespace Sys2Proof

theorem decodeWith_unprefixedByte {op : Byte} (cat : Catalog) (h : op ≠ Config.escapeByte) (bs : List Byte) :
    decodeWith cat (op :: bs) = .ok (decodeUnprefixedWith cat op bs) :=
  if_neg h

theorem decodeWith_escapeByte (cat : Catalog) (op : Byte) (bs : List Byte) :
    decodeWith cat (Config.escapeByte :: op :: bs) = .ok (decodeCbWith cat op bs) := rfl

theorem decodeUnprefixedWith_mapped {cat : Catalog} {op : Byte} {d : Descriptor} (h : cat.lookup false op = some d)
    (bs : List Byte) :
    decodeUnprefixedWith cat op bs =
      (.unprefixedMapped op d (takeInline d.inlineLength bs).1, (takeInline d.inlineLength bs).2) := by
  rw [decodeUnprefixedWith, h]

theorem decodeUnprefixedWith_unmapped {cat : Catalog} {op : Byte} (h : cat.lookup false op = none) (bs : List Byte) :
    decodeUnprefixedWith cat op bs = (.unprefixedUnknown op, bs) := by
  rw [decodeUnprefixedWith, h]

theorem decodeCbWith_mapped {cat : Catalog} {op : Byte} {d : Descriptor} (h : cat.lookup true op = some d)
    (bs : List Byte) :
    decodeCbWith cat op bs = (.cbMapped op d (takeInline d.inlineLength bs).1, (takeInline d.inlineLength bs).2) := by
  rw [decodeCbWith, h]

theorem decodeCbWith_unmapped {cat : Catalog} {op : Byte} (h : cat.lookup true op = none) (bs : List Byte) :
    decodeCbWith cat op bs = (.cbUnknown op, bs) := by
  rw [decodeCbWith, h]

theorem wf_unprefixedMapped {op : Byte} {d : Descriptor} {inline : List (Option Byte)} :
    (Instr.unprefixedMapped op d inline).wf = true ↔
      op ≠ Config.escapeByte ∧ inline.length = d.inlineLength ∧ presentFirst inline = true := by
  simp [Instr.wf, and_assoc]

theorem wf_cbMapped {op : Byte} {d : Descriptor} {inline : List (Option Byte)} :
    (Instr.cbMapped op d inline).wf = true ↔ inline.length = d.inlineLength ∧ presentFirst inline = true := by
  simp [Instr.wf]

theorem wf_unprefixedUnknown {op : Byte} : (Instr.unprefixedUnknown op).wf = true ↔ op ≠ Config.escapeByte := by
  simp [Instr.wf]

end Sys2Proof

namespace Sys2Proof.Claims

open Sys2Proof.Machine

/-- Settles O6, row by row: the catalog's entry says how many operand bytes to take back. -/
theorem decodeOfEncodeEveryCatalog : Obligations.DecodeOfEncodeEveryCatalog := by
  intro cat i rest hcat hwf hne hc
  cases i with
  | unprefixedMapped op d inline =>
    obtain ⟨hop, hlen, hpresent⟩ := wf_unprefixedMapped.mp hwf
    have htake : takeInline d.inlineLength (inline.reduceOption ++ rest) = (inline, rest) := by
      rw [← hlen]
      exact takeInline_reduceOption hpresent hc
    show decodeWith cat (op :: (inline.reduceOption ++ rest)) = _
    rw [decodeWith_unprefixedByte cat hop, decodeUnprefixedWith_mapped hcat, htake]
  | unprefixedUnknown op =>
    show decodeWith cat (op :: rest) = _
    rw [decodeWith_unprefixedByte cat (wf_unprefixedUnknown.mp hwf), decodeUnprefixedWith_unmapped hcat]
  | cbMapped op d inline =>
    obtain ⟨hlen, hpresent⟩ := wf_cbMapped.mp hwf
    have htake : takeInline d.inlineLength (inline.reduceOption ++ rest) = (inline, rest) := by
      rw [← hlen]
      exact takeInline_reduceOption hpresent hc
    show decodeWith cat (Config.escapeByte :: op :: (inline.reduceOption ++ rest)) = _
    rw [decodeWith_escapeByte, decodeCbWith_mapped hcat, htake]
  | cbUnknown op =>
    show decodeWith cat (Config.escapeByte :: op :: rest) = _
    rw [decodeWith_escapeByte, decodeCbWith_unmapped hcat]
  | escape => exact absurd rfl hne
  | _ => cases hcat

/-- Settles O7, by the space that the first byte chooses and by what the catalog holds for the opcode. -/
theorem encodeOfDecodeEveryCatalog : Obligations.EncodeOfDecodeEveryCatalog := by
  intro cat bs rest i h
  rcases bs with _ | ⟨b, bs⟩
  · cases h
  by_cases hb : b = Config.escapeByte
  · subst hb
    rcases bs with _ | ⟨op, bs⟩
    · cases h
      exact ⟨rfl, rfl, rfl⟩
    rw [decodeWith_escapeByte] at h
    cases hl : cat.lookup true op with
    | none =>
      rw [decodeCbWith_unmapped hl] at h
      cases h
      exact ⟨rfl, rfl, hl⟩
    | some d =>
      rw [decodeCbWith_mapped hl] at h
      cases h
      obtain ⟨happend, hpresent, -⟩ := takeInline_append d.inlineLength bs
      exact ⟨congrArg (Config.escapeByte :: op :: ·) happend, wf_cbMapped.mpr ⟨length_takeInline .., hpresent⟩, hl⟩
  · rw [decodeWith_unprefixedByte cat hb] at h
    cases hl : cat.lookup false b with
    | none =>
      rw [decodeUnprefixedWith_unmapped hl] at h
      cases h
      exact ⟨rfl, wf_unprefixedUnknown.mpr hb, hl⟩
    | some d =>
      rw [decodeUnprefixedWith_mapped hl] at h
      cases h
      obtain ⟨happend, hpresent, -⟩ := takeInline_append d.inlineLength bs
      exact ⟨congrArg (b :: ·) happend, wf_unprefixedMapped.mpr ⟨hb, length_takeInline .., hpresent⟩, hl⟩

/-- Settles O29: after the first escape the second is an opcode of the CB space like any other. -/
theorem secondEscapeIsAnOpcode : Obligations.SecondEscapeIsAnOpcode := by
  intro cat rest
  have hdecode : decodeWith cat (0xCB :: 0xCB :: rest) = .ok (decodeCbWith cat 0xCB rest) :=
    decodeWith_escapeByte cat 0xCB rest
  rw [hdecode]
  exact ⟨fun d hd => ⟨_, _, by rw [decodeCbWith_mapped hd]⟩, fun hd => by rw [decodeCbWith_unmapped hd]⟩

/-- Settles O3: the decoder run on these words. -/
theorem tableWordsDecodeToTheirRows : Obligations.TableWordsDecodeToTheirRows := by
  unfold Obligations.TableWordsDecodeToTheirRows
  decide

end Sys2Proof.Claims
end

section
/-! SUPPORT. What an instruction of each format answers and emits, and the step as the meaning of the instruction decoded
(40_decode_loop.md R102). -/

namespace Sys2Proof.Machine

theorem recordWith_halted {cat : Catalog} {s : State} {r : HaltReason} (h : s.run = .halted r) :
    recordWith cat s = none := by
  simp [recordWith, h]

theorem recordWith_running {cat : Catalog} {s : State} (h : s.run = .running) :
    recordWith cat s = emitDecoded s (decodeWith cat s.fetchWindow) := by
  simp [recordWith, h]

theorem stepRecord_halted {s : State} {r : HaltReason} (h : s.run = .halted r) : stepRecord s = none := by
  simp [stepRecord, h]

theorem stepRecord_running {s : State} (h : s.run = .running) :
    stepRecord s = emitDecoded s (decode s.fetchWindow) := by
  simp [stepRecord, h]

/-- How many bytes an instruction of a reference format has (30_encoding.md R83). -/
def referenceBytes : Format → Option Nat
  | .u1 => some 1
  | .u2 => some 2
  | .u3 => some 3
  | .cb2 => some 2
  | .unprefixedMapped | .unprefixedUnknown | .escape | .cbMapped | .cbUnknown => none

/-- The format tells the length, and that the instruction is a row of REF_CAT. -/
theorem length_of_referenceBytes {i : Instr} {n : Nat} (h : referenceBytes i.format = some n) :
    i.isReference = true ∧ i.length = n := by
  cases i <;> cases h <;> exact ⟨rfl, rfl⟩

end Sys2Proof.Machine

namespace Sys2Proof.Claims

open Sys2Proof.Machine

/-- In Running, the model's advance is the rule's `pc <- min(p, 0xFFFF)` with its halt. -/
theorem advance_eq_skipped {s : State} (hrun : s.run = .running) (n : Nat) : s.advance n = skipped s n := by
  rw [advance_eq, hrun]
  rfl

theorem haltUnknownOpcode_eq_unknownHalt (prefixed : Bool) (op : Byte) (s : State) :
    haltUnknownOpcode prefixed op s = .next (unknownHalt s prefixed op (opcodeLength prefixed)) :=
  haltUnknownOpcode_eq prefixed op s

/-- A row of REF_CAT skips as many bytes as its format says. -/
theorem exec_of_referenceBytes {i : Instr} {s : State} {n : Nat} (h : referenceBytes i.format = some n)
    (hrun : s.run = .running) : exec i s = .next (skipped s n) := by
  obtain ⟨href, hlen⟩ := length_of_referenceBytes h
  rw [exec_reference i s href, hlen, advance_eq_skipped hrun]

/-- Settles O17: the format u1 has one byte. -/
theorem oneByteRowsComplete : Obligations.OneByteRowsComplete := by
  intro i s hformat hrun
  exact exec_of_referenceBytes (by rw [hformat]; rfl) hrun

/-- Settles O18: the format u2 has two bytes. -/
theorem twoByteRowsComplete : Obligations.TwoByteRowsComplete := by
  intro i s hformat hrun
  exact exec_of_referenceBytes (by rw [hformat]; rfl) hrun

/-- Settles O19: the format u3 has three bytes. -/
theorem threeByteRowsComplete : Obligations.ThreeByteRowsComplete := by
  intro i s hformat hrun
  exact exec_of_referenceBytes (by rw [hformat]; rfl) hrun

/-- Settles O20: the format cb2 has two bytes. -/
theorem cbRowsComplete : Obligations.CbRowsComplete := by
  intro i s hformat hrun
  exact exec_of_referenceBytes (by rw [hformat]; rfl) hrun

/-- Settles O21: two of the rows advance by their opcode bytes and the entry's inline length, the two others halt. -/
theorem decoderRowsComplete : Obligations.DecoderRowsComplete := by
  intro op d inline s hrun
  have hskip (k : Nat) : skip k d.inlineLength s = .next (skipped s (k + inlineSum d)) := by
    rw [skip_eq, advance_eq_skipped hrun, inlineLength_eq_inlineSum]
  exact ⟨hskip 1, hskip 2, haltUnknownOpcode_eq_unknownHalt false op s, haltUnknownOpcode_eq_unknownHalt true op s⟩

/-- Settles O1: in Running the step and its record are those of the instruction decoded. -/
theorem stepRunsDecodedInstruction : Obligations.StepRunsDecodedInstruction := by
  intro cat s i rest hrun
  refine ⟨fun h => ⟨?_, ?_⟩, fun h => ⟨?_, ?_⟩⟩
  · rw [step_running hrun, h]; rfl
  · rw [stepRecord_running hrun, h]; rfl
  · rw [stepWith_running hrun, h]; rfl
  · rw [recordWith_running hrun, h]; rfl

/-- Settles O2: the window is the memory bytes from the pc, as many as there are up to 0xFFFF. -/
theorem fetchWindowIsMemoryFromPc : Obligations.FetchWindowIsMemoryFromPc := by
  intro s n
  have hpc := s.pc.isLt
  have hwindow : n < Config.memSize - s.pc.toNat ↔ s.pc.toNat + n < Config.memSize := by omega
  simp only [State.fetchWindow, getElem?_bytesFrom, State.memRead, hwindow]

/-- Settles O23: past address 0xFFFF there is no second byte. -/
theorem escapeAtTheLastAddressStops : Obligations.EscapeAtTheLastAddressStops := by
  intro s hpc
  have hnone : s.memRead (s.pc.toNat + 1) = none := by rw [hpc]; rfl
  have htop : s.pc.toNat + 1 = 0x10000 := by rw [hpc]; rfl
  rcases execEscapeWith_cases refCat s with ⟨h, -⟩ | ⟨op, hm, -⟩ | ⟨op, d, hm, -⟩
  · rwa [htop] at h
  · rw [hnone] at hm; cases hm
  · rw [hnone] at hm; cases hm

/-- Settles O32: only a running state has a step. -/
theorem haltedStateHasNoStep : Obligations.HaltedStateHasNoStep := by
  intro cat s reason n h
  refine ⟨stepWith_halted h, step_halted h, recordWith_halted h, ?_⟩
  rw [runWith, stepWith_halted h]

end Sys2Proof.Claims
end

section
/-! SUPPORT. The step that reads the rows of REF_CAT and the step of any catalog agree (00_scope.md R12): what the two
decoders read at the same bytes has the same meaning and the same record. -/

namespace Sys2Proof.Machine

open Sys2Proof.Claims

/-- Two instructions that no state tells apart. -/
def SameMeaning (i j : Instr) : Prop := ∀ s, exec i s = exec j s ∧ emit i s = emit j s

/-- The row of the catalog that stands for an opcode of a space that the catalog maps to `d`. -/
def mappedRow (prefixed : Bool) (op : Byte) (d : Descriptor) (inline : List (Option Byte)) : Instr :=
  if prefixed then .cbMapped op d inline else .unprefixedMapped op d inline

theorem exec_mappedRow (prefixed : Bool) (op : Byte) (d : Descriptor) (inline : List (Option Byte)) (s : State) :
    exec (mappedRow prefixed op d inline) s = .next (s.advance (opcodeLength prefixed + d.inlineLength)) := by
  cases prefixed <;> rfl

theorem emit_mappedRow (prefixed : Bool) (op : Byte) (d : Descriptor) (inline : List (Option Byte)) (s : State) :
    emit (mappedRow prefixed op d inline) s = some (makeRecord s.pc prefixed op d inline) := by
  cases prefixed <;> rfl

/-- A row of REF_CAT means what the catalog's row for its entry means, because the entry has as many inline bytes. -/
theorem sameMeaning_mappedRow {i : Instr} (href : i.isReference = true) (hwf : i.wf = true) :
    ∃ d, refCat.lookup i.prefixed i.opcode = some d ∧ d.inlineLength = i.inline.length ∧
      SameMeaning i (mappedRow i.prefixed i.opcode d i.inline) := by
  obtain ⟨d, hlookup, -, -, hsum, -⟩ := referenceRowsMatchTheGrid i href hwf
  have hinline : d.inlineLength = i.inline.length := (inlineLength_eq_inlineSum d).trans hsum
  refine ⟨d, hlookup, hinline, fun s => ⟨?_, ?_⟩⟩
  · rw [exec_reference i s href, exec_mappedRow, hinline, Instr.length]
  · rw [emit_reference i s href, hlookup, Option.map_some, emit_mappedRow]

/-- Whatever the table's decoder reads, the decoder for the catalog REF_CAT reads an instruction of the same meaning. -/
theorem decodeWith_refCat_sameMeaning {bs rest : List Byte} {i : Instr} (h : decode bs = .ok (i, rest)) :
    ∃ j, decodeWith refCat bs = .ok (j, rest) ∧ SameMeaning i j := by
  rcases bs with _ | ⟨b, bs⟩
  · cases h
  by_cases hb : b = Config.escapeByte
  · subst hb
    rcases bs with _ | ⟨op, bs⟩
    · cases h
      exact ⟨.escape, rfl, fun s => ⟨rfl, rfl⟩⟩
    · cases h
      obtain ⟨hcb, hop, hinline, href, hwf⟩ := decodeCb_spec op
      obtain ⟨d, hlookup, hlen, hsame⟩ := sameMeaning_mappedRow href hwf
      rw [hcb, hop] at hlookup
      rw [hcb, hop, hinline] at hsame
      rw [hinline, List.length_nil] at hlen
      refine ⟨_, ?_, hsame⟩
      rw [decodeWith_escapeByte, decodeCbWith_mapped hlookup, hlen]
      rfl
  · rw [decode_unprefixed hb] at h
    obtain ⟨n, hun, hop, hinline, rfl, href, hwf⟩ := decodeUnprefixed_spec hb (Except.ok.inj h)
    obtain ⟨d, hlookup, hlen, hsame⟩ := sameMeaning_mappedRow href hwf
    rw [hun, hop] at hlookup
    rw [hun, hop, hinline] at hsame
    rw [hinline, length_takeInline] at hlen
    refine ⟨_, ?_, hsame⟩
    rw [decodeWith_unprefixedByte refCat hb, decodeUnprefixedWith_mapped hlookup, hlen]
    rfl

/-- The decoder reads something wherever there is a byte, so at every pc. -/
theorem decode_fetchWindow (s : State) : ∃ i rest, decode s.fetchWindow = .ok (i, rest) := by
  rw [fetchWindow_eq]
  by_cases hb : s.mem.read s.pc.toNat = Config.escapeByte
  · rw [hb]
    cases bytesFrom s.mem (s.pc.toNat + 1) (0xFFFF - s.pc.toNat) <;> exact ⟨_, _, rfl⟩
  · exact ⟨_, _, decode_unprefixed hb _⟩

end Sys2Proof.Machine

namespace Sys2Proof.Claims

open Sys2Proof.Machine

/-- Settles O9: both steps are the meaning of what is decoded at the pc, and the two decoders read the same meaning. -/
theorem stepIsTheReferenceCatalogStep : Obligations.StepIsTheReferenceCatalogStep := by
  intro s
  cases hrun : s.run with
  | halted r => exact ⟨(step_halted hrun).trans (stepWith_halted hrun).symm,
      (stepRecord_halted hrun).trans (recordWith_halted hrun).symm⟩
  | running =>
    obtain ⟨i, rest, hi⟩ := decode_fetchWindow s
    obtain ⟨j, hj, hsame⟩ := decodeWith_refCat_sameMeaning hi
    obtain ⟨hexec, hemit⟩ := hsame s
    obtain ⟨hstep, hrecord⟩ := (stepRunsDecodedInstruction refCat s i rest hrun).1 hi
    obtain ⟨hstepWith, hrecordWith⟩ := (stepRunsDecodedInstruction refCat s j rest hrun).2 hj
    exact ⟨hstep.trans (hexec.trans hstepWith.symm), hrecord.trans (hemit.trans hrecordWith.symm)⟩

/-- Settles O22: the entry of a CB row has no inline byte, so the escape skips two bytes and emits that row's record. -/
theorem escapeCompletesAsItsCbRow : Obligations.EscapeCompletesAsItsCbRow := by
  intro s o hrun ho
  obtain ⟨hcb, hop, hinline, href, hwf⟩ := decodeCb_spec o
  obtain ⟨d, hlookup, hlen, hsame⟩ := sameMeaning_mappedRow href hwf
  obtain ⟨hexec, hemit⟩ := hsame s
  rw [hcb, hop] at hlookup
  rw [hcb, hop, hinline, exec_mappedRow] at hexec
  rw [hcb, hop, hinline, emit_mappedRow] at hemit
  rw [hinline, List.length_nil] at hlen
  have hescape : exec .escape s = .next (s.advance 2) := by
    show execEscapeWith refCat s = _
    simp only [execEscapeWith, ho, hlookup, skip_eq, hlen]
  have hrecord : emit .escape s = some (makeRecord s.pc true o d []) := by
    show emitEscapeWith refCat s = _
    simp only [emitEscapeWith, ho, hlookup, hlen, State.operandBytes]
  rw [hescape, hrecord, hexec, hemit, hlen]
  exact ⟨congrArg _ (advance_eq_skipped hrun 2), rfl, rfl⟩

end Sys2Proof.Claims
end

section
/-! SUPPORT. The step by what it fetches: the space and the opcode at the pc decide which entry of the catalog is looked
up, and the entry's inline length decides the answer (40_decode_loop.md R102 to R107). -/

namespace Sys2Proof.Machine

open Sys2Proof.Claims

/-- The opcode that a step fetches, and its space: after the escape byte the CB space, else the unprefixed one
(30_encoding.md R71). -/
def Fetched (s : State) (prefixed : Bool) (op : Byte) : Prop :=
  if prefixed then s.memRead s.pc.toNat = some 0xCB ∧ s.memRead (s.pc.toNat + 1) = some op
    else s.memRead s.pc.toNat = some op ∧ op ≠ 0xCB

theorem fetched_unprefixed {s : State} {op : Byte} (hm : s.memRead s.pc.toNat = some op) (hop : op ≠ 0xCB) :
    Fetched s false op :=
  ⟨hm, hop⟩

theorem fetched_prefixed {s : State} {op : Byte} (hm : s.memRead s.pc.toNat = some 0xCB)
    (hop : s.memRead (s.pc.toNat + 1) = some op) : Fetched s true op :=
  ⟨hm, hop⟩

/-- A state fetches one opcode only. -/
theorem Fetched.unique {s : State} {prefixed prefixed' : Bool} {op op' : Byte} (h : Fetched s prefixed op)
    (h' : Fetched s prefixed' op') : prefixed = prefixed' ∧ op = op' := by
  cases prefixed <;> cases prefixed'
  · obtain ⟨hm, -⟩ := h
    obtain ⟨hm', -⟩ := h'
    exact ⟨rfl, Option.some.inj (hm.symm.trans hm')⟩
  · obtain ⟨hm, hne⟩ := h
    obtain ⟨hm', -⟩ := h'
    exact absurd (Option.some.inj (hm.symm.trans hm')) hne
  · obtain ⟨hm, -⟩ := h
    obtain ⟨hm', hne⟩ := h'
    exact absurd (Option.some.inj (hm'.symm.trans hm)) hne
  · obtain ⟨-, hm⟩ := h
    obtain ⟨-, hm'⟩ := h'
    exact ⟨rfl, Option.some.inj (hm.symm.trans hm')⟩

/-- An opcode is fetched wherever the pc is an instruction address (40_decode_loop.md R106). -/
theorem exists_fetched {s : State} (h : s.pc.toNat ≤ 0xFFFE) : ∃ prefixed op, Fetched s prefixed op := by
  by_cases hop : s.mem.read s.pc.toNat = 0xCB
  · exact ⟨true, _, fetched_prefixed (by rw [memRead_pc, hop]) (memRead_pc_succ s h)⟩
  · exact ⟨false, _, fetched_unprefixed (memRead_pc s) hop⟩

/-- At address 0xFFFF an opcode is fetched unless the byte there is the escape. -/
theorem fetched_or_escapeAtTop (s : State) :
    (∃ prefixed op, Fetched s prefixed op) ∨ (s.memRead s.pc.toNat = some 0xCB ∧ s.pc.toNat = 0xFFFF) := by
  have hpc := s.pc.isLt
  by_cases hp : s.pc.toNat ≤ 0xFFFE
  · exact .inl (exists_fetched hp)
  by_cases hop : s.mem.read s.pc.toNat = 0xCB
  · exact .inr ⟨by rw [memRead_pc, hop], by omega⟩
  · exact .inl ⟨false, _, fetched_unprefixed (memRead_pc s) hop⟩

/-- What a step answers for an opcode: to the inline length of its entry, or to no entry. -/
def resolve (prefixed : Bool) (op : Byte) (entry : Option Nat) (s : State) : Result :=
  match entry with
  | none => haltUnknownOpcode prefixed op s
  | some n => .next (s.advance (opcodeLength prefixed + n))

/-- The record that a step emits for an opcode: that of its entry, or none. -/
def recordAt (prefixed : Bool) (op : Byte) (entry : Option Descriptor) (s : State) : Option DecodeRecord :=
  entry.map fun d => makeRecord s.pc prefixed op d (s.operandBytes (s.pc.toNat + opcodeLength prefixed) d.inlineLength)

/-- A step from Running looks the fetched opcode up, and answers and emits by its entry. -/
theorem stepWith_of_fetched (cat : Catalog) {s : State} {prefixed : Bool} {op : Byte} (hrun : s.run = .running)
    (h : Fetched s prefixed op) :
    stepWith cat s = resolve prefixed op ((cat.lookup prefixed op).map inlineSum) s ∧
    recordWith cat s = recordAt prefixed op (cat.lookup prefixed op) s := by
  rcases stepWith_cases cat hrun with ⟨o, d, hm, ho, hl, hstep, hrecord⟩ | ⟨o, hm, ho, hl, hstep, hrecord⟩ |
    ⟨o, d, hm, ho, hl, hstep, hrecord⟩ | ⟨o, hm, ho, hl, hstep, hrecord⟩ | ⟨hm, htop, -, -⟩
  · obtain ⟨rfl, rfl⟩ := h.unique (fetched_unprefixed hm ho)
    rw [hstep, hrecord, hl, Option.map_some, ← inlineLength_eq_inlineSum]
    exact ⟨rfl, rfl⟩
  · obtain ⟨rfl, rfl⟩ := h.unique (fetched_unprefixed hm ho)
    rw [hstep, hrecord, hl]
    exact ⟨rfl, rfl⟩
  · obtain ⟨rfl, rfl⟩ := h.unique (fetched_prefixed hm ho)
    rw [hstep, hrecord, hl, Option.map_some, ← inlineLength_eq_inlineSum]
    exact ⟨rfl, rfl⟩
  · obtain ⟨rfl, rfl⟩ := h.unique (fetched_prefixed hm ho)
    rw [hstep, hrecord, hl]
    exact ⟨rfl, rfl⟩
  · cases prefixed
    · obtain ⟨hm', hne⟩ := h
      exact absurd (Option.some.inj (hm'.symm.trans hm)) hne
    · obtain ⟨-, ho⟩ := h
      obtain ⟨hlt, -⟩ := pc_le_of_memRead_succ ho
      omega

/-- At the top of memory the escape alone stops the machine, whatever the catalog. -/
theorem stepWith_escapeAtTop (cat : Catalog) {s : State} (hrun : s.run = .running)
    (hm : s.memRead s.pc.toNat = some 0xCB) (htop : s.pc.toNat = 0xFFFF) :
    stepWith cat s = .fault (.fetchOutsideMemory 0x10000) ∧ recordWith cat s = none := by
  have hnone : s.memRead (s.pc.toNat + 1) = none := by rw [htop]; rfl
  rcases stepWith_cases cat hrun with ⟨o, d, hm', ho, -⟩ | ⟨o, hm', ho, -⟩ | ⟨o, d, -, ho, -⟩ | ⟨o, -, ho, -⟩ |
    ⟨-, -, hstep, hrecord⟩
  · exact absurd (Option.some.inj (hm'.symm.trans hm)) ho
  · exact absurd (Option.some.inj (hm'.symm.trans hm)) ho
  · rw [hnone] at ho; cases ho
  · rw [hnone] at ho; cases ho
  · exact ⟨hstep, hrecord⟩

/-- A step that answers a next state fetched an opcode in Running. -/
theorem fetched_of_stepWith {cat : Catalog} {s t : State} (h : stepWith cat s = .next t) :
    s.run = .running ∧ ∃ prefixed op, Fetched s prefixed op := by
  obtain ⟨hrun, -⟩ := stepWith_next h
  refine ⟨hrun, (fetched_or_escapeAtTop s).resolve_right ?_⟩
  rintro ⟨hm, htop⟩
  obtain ⟨hstep, -⟩ := stepWith_escapeAtTop cat hrun hm htop
  rw [hstep] at h
  cases h

/-- A record is that of the entry of the opcode fetched in Running. -/
theorem record_of_recordWith {cat : Catalog} {s : State} {r : DecodeRecord} (h : recordWith cat s = some r) :
    s.run = .running ∧ ∃ prefixed op d, Fetched s prefixed op ∧ cat.lookup prefixed op = some d ∧
      r = makeRecord s.pc prefixed op d (s.operandBytes (s.pc.toNat + opcodeLength prefixed) d.inlineLength) := by
  cases hrun : s.run with
  | halted reason => rw [recordWith_halted hrun] at h; cases h
  | running =>
    refine ⟨rfl, ?_⟩
    rcases fetched_or_escapeAtTop s with ⟨prefixed, op, hf⟩ | ⟨hm, htop⟩
    · obtain ⟨-, hrecord⟩ := stepWith_of_fetched cat hrun hf
      rw [hrecord, recordAt, Option.map_eq_some_iff] at h
      obtain ⟨d, hl, rfl⟩ := h
      exact ⟨prefixed, op, d, hf, hl, rfl⟩
    · obtain ⟨-, hrecord⟩ := stepWith_escapeAtTop cat hrun hm htop
      rw [hrecord] at h
      cases h

end Sys2Proof.Machine

namespace Sys2Proof.Claims

open Sys2Proof.Machine

/-- The step at an opcode that the catalog maps, in either space. -/
theorem stepWith_mapped {cat : Catalog} {s : State} {prefixed : Bool} {op : Byte} {d : Descriptor}
    (hrun : s.run = .running) (hf : Fetched s prefixed op) (hl : cat.lookup prefixed op = some d) :
    stepWith cat s = .next (skipped s (opcodeLength prefixed + inlineSum d)) ∧
    ∃ r, recordWith cat s = some r ∧ recordOf r s prefixed op d (opcodeLength prefixed + inlineSum d) := by
  obtain ⟨hstep, hrecord⟩ := stepWith_of_fetched cat hrun hf
  rw [hstep, hrecord, hl, ← advance_eq_skipped hrun, ← inlineLength_eq_inlineSum]
  refine ⟨by rw [Option.map_some, ← inlineLength_eq_inlineSum]; rfl, _, rfl, rfl, rfl, rfl, rfl, rfl, rfl⟩

/-- The step at an opcode that the catalog leaves unmapped, in either space. -/
theorem stepWith_unmapped {cat : Catalog} {s : State} {prefixed : Bool} {op : Byte} (hrun : s.run = .running)
    (hf : Fetched s prefixed op) (hl : cat.lookup prefixed op = none) :
    stepWith cat s = .next (unknownHalt s prefixed op (opcodeLength prefixed)) ∧ recordWith cat s = none := by
  obtain ⟨hstep, hrecord⟩ := stepWith_of_fetched cat hrun hf
  rw [hstep, hrecord, hl]
  exact ⟨haltUnknownOpcode_eq_unknownHalt prefixed op s, rfl⟩

/-- Settles O10: the unprefixed opcode is what the step fetches, and its entry has the inline length `S`. -/
theorem unprefixedMappedStep : Obligations.UnprefixedMappedStep := by
  intro cat s o d hrun hm ho hd
  exact stepWith_mapped hrun (fetched_unprefixed hm ho) hd

/-- Settles O11: the byte after the escape is the opcode that the step fetches. -/
theorem cbMappedStep : Obligations.CbMappedStep := by
  intro cat s o d hrun hm ho hd
  exact stepWith_mapped hrun (fetched_prefixed hm ho) hd

/-- Settles O12: the exact next pc `a0 + 1` is an address, so the write-back leaves it. -/
theorem unprefixedUnmappedHalts : Obligations.UnprefixedUnmappedHalts := by
  intro cat s o hrun hpc hm ho hd
  have hnext : BitVec.ofNat 16 (min (s.pc.toNat + 1) 0xFFFF) = s.pc + 1 := by
    apply BitVec.eq_of_toNat_eq
    rw [Nat.min_eq_left (by omega), BitVec.toNat_ofNat, BitVec.toNat_add]
    rfl
  rw [← hnext]
  exact stepWith_unmapped hrun (fetched_unprefixed hm ho) hd

/-- Settles O13: two opcode bytes are fetched before the lookup fails. -/
theorem cbUnmappedHalts : Obligations.CbUnmappedHalts := by
  intro cat s o hrun hm ho hd
  exact stepWith_unmapped hrun (fetched_prefixed hm ho) hd

/-- Settles O14: the lookup fails before the pc is compared with the limit, as in `cbUnmappedHalts`. -/
theorem unknownOpcodeWinsOverPcOverflow : Obligations.UnknownOpcodeWinsOverPcOverflow := by
  intro cat s o hrun hpc hm ho hd
  have hpc' : s.pc.toNat = 0xFFFE := by rw [hpc]; rfl
  obtain ⟨hstep, -⟩ := cbUnmappedHalts cat s o hrun (by rwa [hpc']) (by rwa [hpc']) hd
  rw [hstep, unknownHalt, hpc]
  rfl

/-- Settles O16: the step advances by 2, which reaches the limit from 0xFFFD on and not below it. -/
theorem cbZeroConsumesTwoBytes : Obligations.CbZeroConsumesTwoBytes := by
  intro cat s d hrun hm ho hd hsum
  obtain ⟨hstep, -⟩ := cbMappedStep cat s 0x00 d hrun hm ho hd
  rw [hstep, hsum, ← advance_eq_skipped hrun]
  exact ⟨fun hlt => congrArg _ (advance_of_lt_limit (by omega)), fun hle => congrArg _ (advance_of_limit_le (by omega))⟩

end Sys2Proof.Claims
end

section
/-! SUPPORT. What a step does not depend on (40_decode_loop.md R108, 30_encoding.md R74, R75). -/

namespace Sys2Proof.Machine

/-- An answer depends on the state through its pc and its run state only. -/
theorem resolve_pc_run {prefixed : Bool} {op : Byte} {entry : Option Nat} {s s' t : State} (hpc : s'.pc = s.pc)
    (hrun : s'.run = s.run) (h : resolve prefixed op entry s = .next t) :
    ∃ t', resolve prefixed op entry s' = .next t' ∧ t'.pc = t.pc ∧ t'.run = t.run := by
  cases entry with
  | none =>
    cases h
    exact ⟨_, rfl, by rw [halt_pc, halt_pc, hpc], by rw [halt_run, halt_run, hpc]⟩
  | some n =>
    cases h
    exact ⟨_, rfl, by rw [advance_pc, advance_pc, hpc], by rw [advance_run, advance_run, hpc, hrun]⟩

/-- Two catalogs step and emit alike where they do so for the opcode that is fetched: no other entry is looked up. -/
theorem stepWith_congr {cat cat' : Catalog} {s : State}
    (h : ∀ prefixed op, Fetched s prefixed op → s.run = .running →
      stepWith cat s = stepWith cat' s ∧ recordWith cat s = recordWith cat' s) :
    stepWith cat s = stepWith cat' s ∧ recordWith cat s = recordWith cat' s := by
  cases hrun : s.run with
  | halted reason =>
    rw [stepWith_halted hrun, stepWith_halted hrun, recordWith_halted hrun, recordWith_halted hrun]
    exact ⟨rfl, rfl⟩
  | running =>
    rcases fetched_or_escapeAtTop s with ⟨prefixed, op, hf⟩ | ⟨hm, htop⟩
    · exact h prefixed op hf hrun
    · obtain ⟨hstep, hrecord⟩ := stepWith_escapeAtTop cat hrun hm htop
      obtain ⟨hstep', hrecord'⟩ := stepWith_escapeAtTop cat' hrun hm htop
      exact ⟨hstep.trans hstep'.symm, hrecord.trans hrecord'.symm⟩

end Sys2Proof.Machine

namespace Sys2Proof.Claims

open Sys2Proof.Machine

/-- Settles O26: the two states fetch the same opcode, and the answer to it depends on the pc and the run state only. -/
theorem operandValuesAreNotConsulted : Obligations.OperandValuesAreNotConsulted := by
  intro cat s s' t hpc hrun hmem hmem2 h
  obtain ⟨hrunning, prefixed, op, hf⟩ := fetched_of_stepWith h
  have hf' : Fetched s' prefixed op := by
    cases prefixed with
    | false =>
      obtain ⟨hm, hop⟩ := hf
      exact fetched_unprefixed (by rw [hpc, hmem, hm]) hop
    | true =>
      obtain ⟨hm, hop⟩ := hf
      exact fetched_prefixed (by rw [hpc, hmem, hm]) (by rw [hpc, hmem2 hm, hop])
  obtain ⟨hstep, -⟩ := stepWith_of_fetched cat hrunning hf
  obtain ⟨hstep', -⟩ := stepWith_of_fetched cat (hrun.trans hrunning) hf'
  rw [hstep] at h
  rw [hstep']
  exact resolve_pc_run hpc hrun h

/-- Settles O27: a step answers by the inline length of the entry looked up. -/
theorem onlyOperandLengthsMatter : Obligations.OnlyOperandLengthsMatter := by
  intro cat cat' s hsum
  cases hrun : s.run with
  | halted reason => rw [stepWith_halted hrun, stepWith_halted hrun]
  | running =>
    rcases fetched_or_escapeAtTop s with ⟨prefixed, op, hf⟩ | ⟨hm, htop⟩
    · rw [(stepWith_of_fetched cat hrun hf).1, (stepWith_of_fetched cat' hrun hf).1, hsum]
    · rw [(stepWith_escapeAtTop cat hrun hm htop).1, (stepWith_escapeAtTop cat' hrun hm htop).1]

/-- Settles O28: the opcode fetched in the unprefixed space is never the escape byte. -/
theorem unprefixedEscapeEntryIsNeverConsulted : Obligations.UnprefixedEscapeEntryIsNeverConsulted := by
  intro cat cat' s hcb hun
  refine stepWith_congr fun prefixed op hf hrun => ?_
  have hl : cat'.lookup prefixed op = cat.lookup prefixed op := by
    cases prefixed with
    | true => exact hcb op
    | false =>
      obtain ⟨-, hop⟩ := hf
      exact hun op hop
  obtain ⟨hstep, hrecord⟩ := stepWith_of_fetched cat hrun hf
  obtain ⟨hstep', hrecord'⟩ := stepWith_of_fetched cat' hrun hf
  rw [hstep, hstep', hrecord, hrecord', hl]
  exact ⟨rfl, rfl⟩

end Sys2Proof.Claims
end

section
/-! SUPPORT. Progress and the invariant: what a step does to the pc, and what the host's operations do to F and memory
(10_state.md R24, R30, 40_decode_loop.md R114, R115). -/

namespace Sys2Proof.Machine

/-- A step leaves the pc past at least one byte, and below the limit while the run goes on. -/
theorem pc_of_stepWith {cat : Catalog} {s t : State} (h : stepWith cat s = .next t) :
    ∃ n, 1 ≤ n ∧ t.pc.toNat = min (s.pc.toNat + n) 0xFFFF ∧ (t.run = .running → s.pc.toNat + n < 0xFFFF) := by
  obtain ⟨-, i, -, -, hexec⟩ := stepWith_next h
  obtain ⟨-, -, -, n, hn, hpc, hrun⟩ := exec_next hexec
  refine ⟨n, hn, by rw [hpc, toNat_writeBackPc], fun hrunning => ?_⟩
  rcases hrun with ⟨-, hlt⟩ | ⟨hhalt, -⟩ | ⟨_, _, hhalt⟩
  · exact hlt
  · rw [hhalt] at hrunning; cases hrunning
  · rw [hhalt] at hrunning; cases hrunning

/-- In Running at an instruction address there is always a step. -/
theorem exists_stepWith (cat : Catalog) {s : State} (hrun : s.run = .running) (hpc : s.pc.toNat ≤ 0xFFFE) :
    ∃ t, stepWith cat s = .next t := by
  obtain ⟨prefixed, op, hf⟩ := exists_fetched hpc
  rw [(stepWith_of_fetched cat hrun hf).1]
  cases (cat.lookup prefixed op).map Claims.inlineSum <;> exact ⟨_, rfl⟩

/-- A step keeps the invariant: it leaves memory and F alone, and goes on only below the limit. -/
theorem inv_of_stepWith {cat : Catalog} {s t : State} (hinv : s.Inv) (h : stepWith cat s = .next t) : t.Inv := by
  obtain ⟨-, -, -, -, -, hregs, hmem⟩ := Claims.onlyPcAndRun_of_stepWith h
  obtain ⟨n, -, hpc, hlt⟩ := pc_of_stepWith h
  refine ⟨hmem ▸ hinv.memory, hregs ▸ hinv.flagNibble, fun hrun => ?_⟩
  have := hlt hrun
  omega

/-! ## The host's operations -/

/-- A write to a register leaves the low nibble of F zero: F is masked at the write. -/
theorem write8_flagNibble {x : Regs} (h : x.f &&& 0x0F#8 = 0#8) (r : Reg8) (v : Byte) :
    (x.write8 r v).f &&& 0x0F#8 = 0#8 := by
  cases r with
  | f =>
    have hmask : flagMask &&& 0x0F#8 = 0#8 := by decide
    calc v &&& flagMask &&& 0x0F#8
        = v &&& (flagMask &&& 0x0F#8) := BitVec.and_assoc ..
      _ = 0#8 := by rw [hmask, BitVec.and_zero]
  | _ => exact h

theorem inv_write8 {s : State} (h : s.Inv) (r : Reg8) (v : Byte) : (s.write8 r v).Inv :=
  ⟨h.memory, write8_flagNibble h.flagNibble r v, h.pcBelowTop⟩

theorem inv_loadProgram {s t : State} {img : List Byte} (h : s.Inv) (ht : s.loadProgram img = .ok t) : t.Inv := by
  obtain ⟨hfits, rfl⟩ := loadProgram_ok ht
  exact ⟨wf_writeBytes hfits h.memory, h.flagNibble, h.pcBelowTop⟩

/-- Every accessor writes registers by `write8`, or the stack pointer, which the invariant does not speak of. -/
theorem inv_apply {op : HostOp} {s t : State} (h : s.Inv) (ht : op.apply s = .ok t) : t.Inv := by
  cases op with
  | loadProgram img => exact inv_loadProgram h ht
  | write8 r v => cases ht; exact inv_write8 h r v
  | write16 p v => cases ht; exact inv_write8 (inv_write8 h _ _) _ _
  | writeSp v => cases ht; exact ⟨h.memory, h.flagNibble, h.pcBelowTop⟩
  | setFlag f => cases ht; exact inv_write8 h _ _
  | clearFlag f => cases ht; exact inv_write8 h _ _

theorem inv_setup {ops : List HostOp} {s t : State} (h : s.Inv) (ht : setup ops s = .ok t) : t.Inv := by
  induction ops generalizing s with
  | nil => cases ht; exact h
  | cons op ops ih =>
    rw [setup] at ht
    cases hop : op.apply s with
    | error e => rw [hop] at ht; cases ht
    | ok u => rw [hop] at ht; exact ih (inv_apply h hop) ht

end Sys2Proof.Machine

namespace Sys2Proof.Claims

open Sys2Proof.Machine

/-- Settles O30: the step passes `n >= 1` bytes, and `min(pc + n, 0xFFFF)` is above a pc of at most 0xFFFE. -/
theorem pcAdvancesByAtLeastOne : Obligations.PcAdvancesByAtLeastOne := by
  intro cat s t hpc h
  obtain ⟨n, hn, hnext, -⟩ := pc_of_stepWith h
  omega

/-- Settles O33: the invariant puts the pc of a running state at an instruction address. -/
theorem runningStateAlwaysSteps : Obligations.RunningStateAlwaysSteps := by
  intro cat s hinv hrun
  exact exists_stepWith cat hrun (hinv.pcBelowTop hrun)

/-- Settles O34: `step` is a step under a catalog too. -/
theorem stepKeepsInvariant : Obligations.StepKeepsInvariant := by
  rintro cat s t hinv (h | h)
  · exact inv_of_stepWith hinv h
  · rw [(stepIsTheReferenceCatalogStep s).1] at h
    exact inv_of_stepWith hinv h

/-- Settles O35: the values at reset. -/
theorem resetMeetsInvariant : Obligations.ResetMeetsInvariant :=
  ⟨wf_nil, rfl, fun _ => by decide⟩

/-- Settles O37, operation by operation. -/
theorem hostOperationsKeepInvariant : Obligations.HostOperationsKeepInvariant := by
  intro op s t h ht
  exact inv_apply h ht

/-- Settles O38, by induction on how the state was reached: setups and accessors are host operations, and steps keep the
invariant. -/
theorem reachableStatesMeetInvariant : Obligations.ReachableStatesMeetInvariant := by
  intro cat s h
  induction h with
  | start hsetup => exact inv_setup resetMeetsInvariant hsetup
  | step _ hstep ih => exact inv_of_stepWith ih hstep
  | access _ _ _ happly ih => exact inv_apply ih happly

end Sys2Proof.Claims
end

section
/-! SUPPORT. How a run ends, and the records that it emits (40_decode_loop.md R112, R114, 60_exceptions.md R201 to
R203). -/

namespace Sys2Proof.Machine

theorem runWith_succ_of_step {cat : Catalog} {s u : State} (h : stepWith cat s = .next u) (n : Nat) :
    runWith cat (n + 1) s = runWith cat n u := by
  rw [runWith, h]

theorem traceWith_succ_of_step {cat : Catalog} {s u : State} (h : stepWith cat s = .next u) (n : Nat) :
    traceWith cat (n + 1) s = (recordWith cat s).toList ++ traceWith cat n u := by
  rw [traceWith, h]

/-- From a halted state only the empty run answers a next state. -/
theorem runWith_halted_next {cat : Catalog} {n : Nat} {s t : State} {reason : HaltReason} (h : s.run = .halted reason)
    (ht : runWith cat n s = .next t) : n = 0 ∧ t = s := by
  cases n with
  | zero => cases ht; exact ⟨rfl, rfl⟩
  | succ n =>
    obtain ⟨u, hstep, -⟩ := runWith_succ_next ht
    rw [stepWith_halted h] at hstep
    cases hstep

theorem ended_of_halted {s : State} {reason : HaltReason} (h : s.run = .halted reason) : s.ended := by
  cases reason with
  | pcOverflow => exact .inl h
  | unknownOpcode prefixed op address => exact .inr ⟨prefixed, op, address, h⟩

/-- Every step raises the pc, so a run from an instruction address ends before it has taken one step for each address up
to 0xFFFF. The induction is on a bound of their number. -/
theorem exists_run_ended (cat : Catalog) (fuel : Nat) {s : State} (hrun : s.run = .running) (hpc : s.pc.toNat ≤ 0xFFFE)
    (hfuel : 0xFFFF - s.pc.toNat ≤ fuel) : ∃ n t, n ≤ 0xFFFF - s.pc.toNat ∧ runWith cat n s = .next t ∧ t.ended := by
  induction fuel generalizing s with
  | zero => omega
  | succ fuel ih =>
    obtain ⟨u, hstep⟩ := exists_stepWith cat hrun hpc
    obtain ⟨k, hk, hupc, hlt⟩ := pc_of_stepWith hstep
    cases hu : u.run with
    | halted reason => exact ⟨1, u, by omega, runWith_succ_of_step hstep 0, ended_of_halted hu⟩
    | running =>
      have := hlt hu
      obtain ⟨n, t, hn, ht, hended⟩ := ih hu (by omega) (by omega)
      exact ⟨n + 1, t, by omega, by rw [runWith_succ_of_step hstep, ht], hended⟩

end Sys2Proof.Machine

namespace Sys2Proof.Claims

open Sys2Proof.Machine

theorem skipped_of_limit_le {s : State} {n : Nat} (hrun : s.run = .running) (h : 0xFFFF ≤ s.pc.toNat + n) :
    skipped s n = { s with pc := 0xFFFF#16, run := .halted .pcOverflow } :=
  (advance_eq_skipped hrun n).symm.trans (advance_of_limit_le h)

theorem skipped_of_lt_limit {s : State} {n : Nat} (hrun : s.run = .running) (h : s.pc.toNat + n < 0xFFFF) :
    skipped s n = { s with pc := s.pc + BitVec.ofNat 16 n } :=
  (advance_eq_skipped hrun n).symm.trans (advance_of_lt_limit h)

/-- A step looks an opcode up: if the catalog maps it, the step emits a record and halts with PcOverflow or not at all; if
not, it emits none and halts with UnknownOpcode. -/
theorem stepWith_ends {cat : Catalog} {s t : State} (h : stepWith cat s = .next t) :
    (∃ r, recordWith cat s = some r ∧
      ((t.run = .running ∧ s.pc.toNat + r.length < 0xFFFF) ∨
        (t.run = .halted .pcOverflow ∧ t.pc = 0xFFFF#16 ∧ 0xFFFF ≤ s.pc.toNat + r.length))) ∨
    (recordWith cat s = none ∧ ∃ prefixed op, Fetched s prefixed op ∧ cat.lookup prefixed op = none ∧
      t.run = .halted (.unknownOpcode prefixed op s.pc)) := by
  obtain ⟨hrun, prefixed, op, hf⟩ := fetched_of_stepWith h
  cases hl : cat.lookup prefixed op with
  | none =>
    obtain ⟨hstep, hrecord⟩ := stepWith_unmapped hrun hf hl
    cases hstep.symm.trans h
    exact .inr ⟨hrecord, prefixed, op, hf, hl, rfl⟩
  | some d =>
    obtain ⟨hstep, r, hrecord, -, -, -, -, -, hlength⟩ := stepWith_mapped hrun hf hl
    rw [← hlength] at hstep
    cases hstep.symm.trans h
    refine .inl ⟨r, hrecord, ?_⟩
    by_cases hle : 0xFFFF ≤ s.pc.toNat + r.length
    · rw [skipped_of_limit_le hrun hle]
      exact .inr ⟨rfl, rfl, hle⟩
    · rw [skipped_of_lt_limit hrun (Nat.not_le.mp hle)]
      exact .inl ⟨hrun, Nat.not_le.mp hle⟩

/-- Settles O31: the two ways in which `stepWith_ends` leaves Running. -/
theorem haltsOnlyForTwoReasons : Obligations.HaltsOnlyForTwoReasons := by
  intro cat s t _ h hhalt
  rcases stepWith_ends h with ⟨r, hrecord, ⟨hrun, -⟩ | ⟨hrun, hpc, hle⟩⟩ | ⟨-, prefixed, op, hf, hl, hrun⟩
  · exact absurd hrun hhalt
  · exact .inr ⟨hrun, hpc, r, hrecord, hle⟩
  · exact .inl ⟨prefixed, op, hrun, hl, hf⟩

/-- Settles O39, by `exists_run_ended` with the number of addresses from the pc up to 0xFFFF as the bound. -/
theorem loopAlwaysHalts : Obligations.LoopAlwaysHalts := by
  intro cat s hrun hpc
  exact exists_run_ended cat _ hrun hpc le_rfl

/-- Settles O41, by induction on the number of steps: REF_CAT maps every opcode, so no step halts with UnknownOpcode. -/
theorem referenceRunsEndWithPcOverflow : Obligations.ReferenceRunsEndWithPcOverflow := by
  intro n
  induction n with
  | zero =>
    intro s t hrun h
    cases h
    exact .inl hrun
  | succ n ih =>
    intro s t hrun h
    obtain ⟨u, hstep, hrest⟩ := runWith_succ_next h
    rcases stepWith_ends hstep with ⟨r, -, ⟨hu, -⟩ | ⟨hu, -⟩⟩ | ⟨-, prefixed, op, -, hl, -⟩
    · exact ih u t hu hrest
    · obtain ⟨-, rfl⟩ := runWith_halted_next hu hrest
      exact .inr hu
    · have hmapped := referenceCatalogMapsEveryKey prefixed op
      rw [hl] at hmapped
      cases hmapped

/-- Settles O43, by induction on the number of steps: a step that goes on emits one record, and after a halt there is no
step. -/
theorem oneRecordPerSuccessfulStep : Obligations.OneRecordPerSuccessfulStep := by
  intro cat n
  induction n with
  | zero =>
    intro s t hrun h
    cases h
    refine ⟨fun _ => rfl, fun prefixed op address hhalt => ?_⟩
    rw [hrun] at hhalt
    cases hhalt
  | succ n ih =>
    intro s t hrun h
    obtain ⟨u, hstep, hrest⟩ := runWith_succ_next h
    rw [traceWith_succ_of_step hstep]
    rcases stepWith_ends hstep with ⟨r, hrecord, ⟨hu, -⟩ | ⟨hu, -⟩⟩ | ⟨hrecord, prefixed, op, -, -, hu⟩
    · obtain ⟨hgoes, hunknown⟩ := ih u t hu hrest
      simp only [hrecord, Option.toList_some, List.singleton_append, List.length_cons, Nat.add_right_cancel_iff]
      exact ⟨hgoes, hunknown⟩
    · obtain ⟨rfl, rfl⟩ := runWith_halted_next hu hrest
      simp [hrecord, hu, traceWith]
    · obtain ⟨rfl, rfl⟩ := runWith_halted_next hu hrest
      simp [hrecord, hu, traceWith]

/-- Settles O44: the record's length is the sum that `CatalogWF` equates with the declared length, and the step advances
by it. -/
theorem consumedLengthIsDeclaredLength : Obligations.ConsumedLengthIsDeclaredLength := by
  intro cat s r hcat hr
  obtain ⟨hrun, prefixed, op, d, hf, hl, rfl⟩ := record_of_recordWith hr
  have hbytes : d.bytes = opcodeLength prefixed + d.inlineLength := hcat prefixed op d hl
  refine ⟨hbytes.symm, fun (hlt : s.pc.toNat + d.bytes < 0xFFFF) => ?_⟩
  obtain ⟨hstep, -⟩ := stepWith_mapped hrun hf hl
  rw [← inlineLength_eq_inlineSum, ← hbytes, skipped_of_lt_limit hrun hlt] at hstep
  refine ⟨_, hstep, ?_, hrun⟩
  show (s.pc + BitVec.ofNat 16 d.bytes).toNat = s.pc.toNat + d.bytes
  rw [BitVec.toNat_add, BitVec.toNat_ofNat]
  omega

end Sys2Proof.Claims
end

section
/-! SUPPORT. The operands of a decode record and their bytes (30_encoding.md R73, 40_decode_loop.md R113). -/

namespace Sys2Proof.Machine

open Sys2Proof.Claims

/-- The operand bytes at consecutive addresses, by their places. -/
theorem operandBytes_eq_map (s : State) (a n : Nat) :
    s.operandBytes a n = (List.range n).map fun i => s.memRead (a + i) := by
  induction n generalizing a with
  | zero => rfl
  | succ n ih =>
    rw [State.operandBytes, ih, List.range_succ_eq_map, List.map_cons, List.map_map]
    congr 1
    exact List.map_congr_left fun i _ => congrArg s.memRead (by simp only [Nat.succ_eq_add_one]; omega)

/-- The bytes of an operand are a part of the operand bytes of its instruction, at a later address. -/
theorem take_drop_operandBytes (s : State) (a : Nat) {n k m : Nat} (h : k + n ≤ m) :
    ((s.operandBytes a m).drop k).take n = (List.range n).map fun i => s.memRead (a + k + i) := by
  apply List.ext_getElem?
  intro i
  by_cases hi : i < n
  · have hm : k + i < m := by omega
    simp [operandBytes_eq_map, hi, hm, Nat.add_assoc]
  · simp [hi]

/-- The operands that are split off are those with a static length, in order. -/
theorem splitOperands_names (os : List OperandDescriptor) (bs : List (Option Byte)) :
    (splitOperands os bs).map (fun o => o.1) = (os.filter fun o => o.bytes.isSome).map (fun o => o.name) := by
  induction os generalizing bs with
  | nil => rfl
  | cons o os ih => cases hb : o.bytes <;> simp [splitOperands, hb, ih]

/-- An operand with a static length takes that many bytes, after those of the operands before it. -/
theorem splitOperands_getElem? (before after : List OperandDescriptor) {o : OperandDescriptor} {n : Nat}
    (ho : o.bytes = some n) (bs : List (Option Byte)) :
    (splitOperands (before ++ o :: after) bs)[(before.filter fun o => o.bytes.isSome).length]? =
      some (o.name, (bs.drop (before.filterMap fun o => o.bytes).sum).take n) := by
  induction before generalizing bs with
  | nil => simp [splitOperands, ho]
  | cons p before ih => cases hb : p.bytes <;> simp [splitOperands, hb, ih, List.drop_drop]

/-- The bytes up to the end of an operand are among the inline bytes of the entry. -/
theorem sum_before_add_le_inlineSum {d : Descriptor} {before after : List OperandDescriptor} {o : OperandDescriptor}
    {n : Nat} (hd : d.operands = before ++ o :: after) (ho : o.bytes = some n) :
    (before.filterMap fun o => o.bytes).sum + n ≤ inlineSum d := by
  simp [inlineSum, hd, ho]

end Sys2Proof.Machine

namespace Sys2Proof.Claims

open Sys2Proof.Machine

/-- Settles O42: the record splits the entry's inline bytes, which are memory's, among the operands with a static
length. -/
theorem recordOperandBytes : Obligations.RecordOperandBytes := by
  intro cat s r hr
  obtain ⟨-, prefixed, op, d, -, -, rfl⟩ := record_of_recordWith hr
  refine ⟨splitOperands_names _ _, fun before after o n (hd : d.operands = before ++ o :: after) ho => ?_⟩
  have hroom : (before.filterMap fun o => o.bytes).sum + n ≤ d.inlineLength := by
    rw [inlineLength_eq_inlineSum]
    exact sum_before_add_le_inlineSum hd ho
  show (splitOperands d.operands _)[_]? = _
  rw [hd, splitOperands_getElem? before after ho, take_drop_operandBytes s _ hroom]
  rfl

end Sys2Proof.Claims
end

section
/-! SUPPORT. Reading a register, a pair or a flag after writing one (42_state_operations.md R175 to R181). -/

namespace Sys2Proof.Machine

theorem read8_write8_same (s : State) (r : Reg8) (v : Byte) :
    (s.write8 r v).read8 r = if r = .f then v &&& flagMask else v := by
  cases r with
  | f =>
    calc v &&& flagMask &&& flagMask
        = v &&& (flagMask &&& flagMask) := BitVec.and_assoc ..
      _ = v &&& flagMask := by rw [BitVec.and_self]
  | _ => rfl

theorem read8_write8_of_ne (s : State) {r r' : Reg8} (h : r' ≠ r) (v : Byte) : (s.write8 r v).read8 r' = s.read8 r' := by
  cases r <;> cases r' <;> first | rfl | exact absurd rfl h

/-- The two registers of a pair are no register of another pair, nor the same register. -/
theorem RegPair.halves_disjoint (p p' : RegPair) (h : p' ≠ p) :
    p'.high ≠ p.high ∧ p'.high ≠ p.low ∧ p'.low ≠ p.high ∧ p'.low ≠ p.low := by
  cases p <;> cases p' <;> first | exact absurd rfl h | decide

theorem RegPair.high_ne_low (p : RegPair) : p.high ≠ p.low := by
  cases p <;> decide

theorem RegPair.high_ne_f (p : RegPair) : p.high ≠ .f := by
  cases p <;> decide

theorem RegPair.low_eq_f_iff (p : RegPair) : p.low = .f ↔ p = .af := by
  cases p <;> decide

/-- A word is its two halves. -/
theorem word_halves (v : Word) : v.extractLsb' 8 8 ++ v.extractLsb' 0 8 = v :=
  (BitVec.extractLsb'_append_extractLsb'_eq_extractLsb' rfl).trans BitVec.extractLsb'_eq_self

/-- Masking the low half with F's mask masks the word. -/
theorem word_halves_masked (v : Word) : v.extractLsb' 8 8 ++ (v.extractLsb' 0 8 &&& flagMask) = v &&& 0xFFF0#16 := by
  calc v.extractLsb' 8 8 ++ (v.extractLsb' 0 8 &&& flagMask)
      = (v.extractLsb' 8 8 ++ v.extractLsb' 0 8) &&& (BitVec.allOnes 8 ++ flagMask) := by
        rw [BitVec.and_append, BitVec.and_allOnes]
    _ = v &&& 0xFFF0#16 := by rw [word_halves]; rfl

theorem read16_write16_same (s : State) (p : RegPair) (v : Word) :
    (s.write16 p v).read16 p = if p = .af then v &&& 0xFFF0#16 else v := by
  simp only [State.read16, State.write16, read8_write8_same, read8_write8_of_ne _ p.high_ne_low, if_neg p.high_ne_f,
    p.low_eq_f_iff]
  split
  · exact word_halves_masked v
  · exact word_halves v

theorem read16_write16_of_ne (s : State) {p p' : RegPair} (h : p' ≠ p) (v : Word) :
    (s.write16 p v).read16 p' = s.read16 p' := by
  obtain ⟨hhh, hhl, hlh, hll⟩ := RegPair.halves_disjoint p p' h
  simp only [State.read16, State.write16, read8_write8_of_ne _ hhh, read8_write8_of_ne _ hhl,
    read8_write8_of_ne _ hlh, read8_write8_of_ne _ hll]

/-! ## Flags -/

/-- A flag's mask lies in the top nibble. -/
theorem Flag.mask_and_flagMask (f : Flag) : f.mask &&& flagMask = f.mask := by
  cases f <;> decide

/-- A flag's mask holds its own bit and no other flag's. -/
theorem Flag.getLsbD_mask (f g : Flag) : f.mask.getLsbD g.bit = decide (g = f) := by
  cases f <;> cases g <;> decide

/-- F reads masked, so masking it again changes nothing. -/
theorem read8_f_and_flagMask (s : State) : s.read8 .f &&& flagMask = s.read8 .f := by
  calc s.regs.f &&& flagMask &&& flagMask
      = s.regs.f &&& (flagMask &&& flagMask) := BitVec.and_assoc ..
    _ = s.regs.f &&& flagMask := by rw [BitVec.and_self]

theorem read8_f_setFlag (s : State) (f : Flag) : (s.setFlag f).read8 .f = s.read8 .f ||| f.mask := by
  rw [State.setFlag, read8_write8_same, if_pos rfl, BitVec.and_or_distrib_right, read8_f_and_flagMask,
    f.mask_and_flagMask]

theorem read8_f_clearFlag (s : State) (f : Flag) : (s.clearFlag f).read8 .f = s.read8 .f &&& ~~~f.mask := by
  rw [State.clearFlag, read8_write8_same, if_pos rfl, BitVec.and_assoc, BitVec.and_comm (~~~f.mask), ← BitVec.and_assoc,
    read8_f_and_flagMask]

theorem testFlag_setFlag (s : State) (f g : Flag) :
    (s.setFlag f).testFlag g = (decide (g = f) || s.testFlag g) := by
  rw [State.testFlag, read8_f_setFlag, BitVec.getLsbD_or, f.getLsbD_mask, Bool.or_comm]
  rfl

theorem testFlag_clearFlag (s : State) (f g : Flag) :
    (s.clearFlag f).testFlag g = (decide (g ≠ f) && s.testFlag g) := by
  have hbit : g.bit < 8 := by have := g.bit_mem_topNibble; omega
  rw [State.testFlag, read8_f_clearFlag, BitVec.getLsbD_and, BitVec.getLsbD_not, f.getLsbD_mask, decide_eq_true hbit,
    Bool.true_and, decide_not, Bool.and_comm]
  rfl

end Sys2Proof.Machine

namespace Sys2Proof.Claims

open Sys2Proof.Machine

/-- Settles O50: the register written reads back, masked for F, and another one reads as before. -/
theorem registerWriteAndRead : Obligations.RegisterWriteAndRead := by
  intro s r r' v
  refine ⟨?_, write8_pc s r v, write8_sp s r v, write8_mem s r v, write8_run s r v⟩
  split
  next h => subst h; exact read8_write8_same s r' v
  next h => exact read8_write8_of_ne s h v

/-- Settles O51: the two halves are written and read one after the other, and no other pair shares one of them. -/
theorem pairWriteAndRead : Obligations.PairWriteAndRead := by
  intro s p p' v
  refine ⟨rfl, rfl, rfl, rfl, ?_, write16_pc s p v, write16_sp s p v, write16_mem s p v, write16_run s p v⟩
  split
  next h => subst h; exact read16_write16_same s p' v
  next h => exact read16_write16_of_ne s h v

/-- Settles O53: setting and clearing a flag change F by its mask, which is that flag's bit. -/
theorem flagAccessors : Obligations.FlagAccessors := by
  intro s f g r hr
  exact ⟨rfl, rfl, rfl, rfl, testFlag_setFlag s f g, testFlag_clearFlag s f g, read8_f_lowNibble _, read8_f_lowNibble _,
    read8_write8_of_ne s hr _, read8_write8_of_ne s hr _, setFlag_pc s f, setFlag_sp s f, setFlag_mem s f, setFlag_run s f,
    clearFlag_pc s f, clearFlag_sp s f, clearFlag_mem s f, clearFlag_run s f⟩

/-- Settles O54: pairs read the registers, and the stack pointer is none of them. -/
theorem stackPointerIsInNoPair : Obligations.StackPointerIsInNoPair := by
  intro s v p
  exact ⟨writeSp_sp s v, rfl, write16_sp s p v, rfl, writeSp_pc s v, writeSp_mem s v, writeSp_run s v⟩

/-- Settles O36: the fields of the reset state, pair by pair and register by register. -/
theorem resetValues : Obligations.ResetValues := by
  have hread8 : ∀ r, State.new.read8 r = 0x00#8 := fun r => by cases r <;> rfl
  have hread16 : ∀ p, State.new.read16 p = 0x0000#16 := fun p => by rw [State.read16, hread8, hread8]; rfl
  exact ⟨rfl, hread8, hread16, rfl, fun _ => rfl, rfl, rfl⟩

end Sys2Proof.Claims
end

section
/-! SUPPORT. The packed status word and the reference key format (10_state.md R32, 41_catalog.md R149). -/

namespace Sys2Proof.Machine

/-- A hexadecimal digit reads back as its value. -/
theorem hexValue_hexDigit : ∀ n < 16, hexValue (hexDigit n) = some n := by
  decide

/-- The format reads a byte's two digits back, and 16 times the first plus the second is the byte. -/
theorem referenceKeyFormat_parse_render (b : Byte) : referenceKeyFormat.parse (referenceKeyFormat.render b) = some b := by
  have hhi := hexValue_hexDigit (b.toNat / 16) (by omega)
  have hlo := hexValue_hexDigit (b.toNat % 16) (Nat.mod_lt _ (by decide))
  have hbyte : BitVec.ofNat 8 (16 * (b.toNat / 16) + b.toNat % 16) = b := by
    rw [Nat.div_add_mod, BitVec.ofNat_toNat, BitVec.setWidth_eq]
  simp only [referenceKeyFormat, hexByte, String.toList_ofList, hhi, hlo, hbyte]

end Sys2Proof.Machine

namespace Sys2Proof.Claims

open Sys2Proof.Machine

/-- Settles O56: each digit reads back. -/
theorem referenceKeyFormatRoundTrip : Obligations.ReferenceKeyFormatRoundTrip :=
  ⟨referenceKeyFormat_parse_render, by decide, by decide⟩

/-- Settles O55: the word is its fields one after another, so each is found at its place. -/
theorem statusWordFields : Obligations.StatusWordFields := by
  refine ⟨rfl, rfl, fun prefixed op address => ?_⟩
  simp only [RunState.statusWord, HaltReason.code]
  refine ⟨?_, ?_, ?_, ?_, ?_⟩
  · exact BitVec.extractLsb'_append_eq_right
  · rw [BitVec.extractLsb'_append_eq_of_le (by decide)]
    exact BitVec.extractLsb'_append_eq_right
  · rw [BitVec.extractLsb'_append_eq_of_le (by decide), BitVec.extractLsb'_append_eq_of_le (by decide)]
    exact BitVec.extractLsb'_append_eq_right
  · rw [BitVec.extractLsb'_append_eq_of_le (by decide), BitVec.extractLsb'_append_eq_of_le (by decide),
      BitVec.extractLsb'_append_eq_of_le (by decide)]
    exact BitVec.extractLsb'_append_eq_right
  · rw [BitVec.extractLsb'_append_eq_of_le (by decide), BitVec.extractLsb'_append_eq_of_le (by decide),
      BitVec.extractLsb'_append_eq_of_le (by decide)]
    exact BitVec.extractLsb'_append_eq_left

end Sys2Proof.Claims
end

section
/-! SUPPORT. The catalog load and the boot (41_catalog.md R150 to R152, 70_reset_and_hazards.md R233). -/

namespace Sys2Proof.Machine

/-- The entries of a space that loads are what its records say, one by one. -/
theorem recordsSay_of_loadSpace {fmt : KeyFormat} {es : List RawEntry} {ds : List (Byte × Descriptor)}
    (h : loadSpace fmt es = .ok ds) : List.Forall₂ (fun e d => RecordSays fmt e d.1 d.2) es ds := by
  rcases loadSpace_cases fmt es with ⟨ds', h', hsays, -⟩ | ⟨e, -, field, h', -⟩
  · cases h.symm.trans h'
    exact hsays
  · cases h.symm.trans h'

/-- A table loads and is malformed nowhere, or the load names a place where it is malformed. -/
theorem loadCatalog_cases (fmt : KeyFormat) (table : RawTable) :
    (∃ cat, loadCatalog fmt (.table table) = .ok cat ∧ ∀ key field, ¬ MalformedTable fmt table key field) ∨
    (∃ key field, loadCatalog fmt (.table table) = .error (.malformedCatalog key field) ∧
      MalformedTable fmt table key field) := by
  simp only [loadCatalog, bind, Except.bind]
  rcases required_cases table.unprefixed "" "unprefixed" with ⟨u, hu, eu⟩ | ⟨hu, eu⟩ <;> simp only [eu]
  swap; · exact .inr ⟨_, _, rfl, .unprefixed hu⟩
  rcases loadSpace_cases fmt u with ⟨du, edu, -, hwfu⟩ | ⟨e, he, field, edu, hm⟩ <;> simp only [edu]
  swap; · exact .inr ⟨_, _, rfl, .record (.inl hu) he hm⟩
  rcases required_cases table.cbprefixed "" "cbprefixed" with ⟨c, hc, ec⟩ | ⟨hc, ec⟩ <;> simp only [ec]
  swap; · exact .inr ⟨_, _, rfl, .cbprefixed hc⟩
  rcases loadSpace_cases fmt c with ⟨dc, edc, -, hwfc⟩ | ⟨e, he, field, edc, hm⟩ <;> simp only [edc]
  swap; · exact .inr ⟨_, _, rfl, .record (.inr hc) he hm⟩
  refine .inl ⟨_, rfl, ?_⟩
  rintro key field (h | h | ⟨hes, he, hm⟩)
  · exact h _ hu
  · exact h _ hc
  · rcases hes with hes | hes
    · rw [hu] at hes
      cases hes
      exact hwfu _ he _ hm
    · rw [hc] at hes
      cases hes
      exact hwfc _ he _ hm

end Sys2Proof.Machine

namespace Sys2Proof.Claims

open Sys2Proof.Machine

/-- Settles O57: a load that succeeds has loaded both spaces, record by record, and a space maps an opcode to the first
record with its key. -/
theorem catalogLoadIsWhole : Obligations.CatalogLoadIsWhole := by
  refine fun fmt table => ⟨fun hwf => ?_, fun cat hload => ?_⟩
  · rcases loadCatalog_cases fmt table with ⟨cat, hload, -⟩ | ⟨key, field, -, hm⟩
    · exact ⟨cat, hload⟩
    · exact absurd hm (hwf key field)
  · obtain ⟨u, c, du, dc, hu, hc, hdu, hdc, rfl⟩ := loadCatalog_ok hload
    have hsaysU := recordsSay_of_loadSpace hdu
    have hsaysC := recordsSay_of_loadSpace hdc
    refine ⟨u, c, hu, hc, spaceOf_isSome hsaysU, spaceOf_isSome hsaysC, fun prefixed op d hd => ?_⟩
    cases prefixed with
    | false => exact spaceOf_some hsaysU hd
    | true => exact spaceOf_some hsaysC hd

/-- Settles O58: a load that succeeds is of a table that is malformed nowhere, and an error names where it is. -/
theorem malformedRecordFailsTheLoad : Obligations.MalformedRecordFailsTheLoad := by
  refine fun fmt table => ⟨rfl, ?_⟩
  rcases loadCatalog_cases fmt table with ⟨cat, hload, hwf⟩ | ⟨key, field, hload, hm⟩
  · refine ⟨fun ⟨key, field, hm⟩ => absurd hm (hwf key field), fun error herror => ?_⟩
    cases hload.symm.trans herror
  · refine ⟨fun _ => ⟨_, hload⟩, fun error herror => ?_⟩
    cases hload.symm.trans herror
    exact ⟨key, field, rfl, hm⟩

theorem boot_of_catalogError {fmt : KeyFormat} {source : Source} {img : List Byte} {e : StartupError}
    (h : loadCatalog fmt source = .error e) : boot fmt source img = .error e := by
  rw [boot, h]

theorem boot_of_imageError {fmt : KeyFormat} {source : Source} {img : List Byte} {cat : Catalog} {e : StartupError}
    (hcat : loadCatalog fmt source = .ok cat) (h : State.new.loadProgram img = .error e) :
    boot fmt source img = .error e := by
  simp only [boot, hcat, h]

theorem boot_of_image {fmt : KeyFormat} {source : Source} {img : List Byte} {cat : Catalog} {s : State}
    (hcat : loadCatalog fmt source = .ok cat) (h : State.new.loadProgram img = .ok s) :
    boot fmt source img = .ok (cat, s) := by
  simp only [boot, hcat, h]

/-- An image that fits is loaded into a new machine by a setup of the one operation `load_program`. -/
theorem reachable_loadProgram (cat : Catalog) {img : List Byte} {s : State} (h : State.new.loadProgram img = .ok s) :
    Reachable cat s := by
  refine .start (ops := [.loadProgram img]) ?_
  simp only [setup, HostOp.apply, h]

/-- Settles O59: the three outcomes of `boot`, by the catalog load and by the size of the image. -/
theorem bootOrder : Obligations.BootOrder := by
  intro fmt source img
  refine ⟨fun e he => boot_of_catalogError he, fun cat hcat hlarge => ?_, fun cat hcat hfits => ?_⟩
  · exact boot_of_imageError hcat (loadProgram_of_tooLarge hlarge)
  · have hload := loadProgram_of_fits (s := State.new) hfits
    obtain ⟨-, hread8, -⟩ := resetValues
    refine ⟨_, boot_of_image hcat hload, rfl, rfl, rfl, hread8, reachable_loadProgram cat hload, fun a => ?_⟩
    exact read_writeBytes (by rw [Nat.add_comm]; exact hfits) wf_nil

end Sys2Proof.Claims
end
